-- ==== Sys2Proof/Word.lean ====
section
/-! DEFINITION. Bytes, 64-bit values and the records that cross the block's ports.
Types only: every function over them stands in a file under Machine/. -/

namespace Sys2Proof

/-- A byte (00_scope.md R8). -/
abbrev Byte := BitVec 8

/-- A 64-bit bit pattern, read as `u64` or, in two's complement, as `i64` (R10, item G1; log entry 10). -/
abbrev Word := BitVec 64

/-- The length of an encoding, 1 to 9 bytes (R6, R13). The tables are indexed by it, so no table has
an entry for index 0 (R21, D15, item I3). -/
inductive Len
  | l1 | l2 | l3 | l4 | l5 | l6 | l7 | l8 | l9
deriving DecidableEq, Repr

/-- A lane array `b[0..8]`: nine bytes, lane 0 first (R9). -/
structure Lanes where
  b0 : Byte
  b1 : Byte
  b2 : Byte
  b3 : Byte
  b4 : Byte
  b5 : Byte
  b6 : Byte
  b7 : Byte
  b8 : Byte
deriving DecidableEq, Repr

/-- The three statuses of a response (60_exceptions.md R120). Code 3 is never produced, so no
constructor stands for it (item I8). -/
inductive Status
  | ok | empty | trunc
deriving DecidableEq, Repr

/-- A request `{op, a, b, avail}` (10_state.md R27). -/
structure Request where
  op    : BitVec 3
  a     : Word
  b     : Lanes
  avail : BitVec 4
deriving DecidableEq, Repr

/-- A response `{status, value, len, adv, bytes}` (R28). -/
structure Response where
  status : Status
  value  : Word
  len    : BitVec 4
  adv    : BitVec 4
  bytes  : Lanes
deriving DecidableEq, Repr

/-- One entry of the queue `pend` (R29): a response, and how many rising edges of `clk` have passed
since its request was accepted, the accepting edge counted (R35, R146; log entry 3). -/
structure Pending where
  rsp : Response
  age : Nat
deriving DecidableEq, Repr

end Sys2Proof
end

