-- ==== Sys2Proof/Machine/Tables.lean ====
section
/-! DEFINITION. The constant lookup tables of 10_state.md R21 to R25. They are the same in every
instance and no request and no reset writes them (R26), so they are definitions and no field of State. -/

namespace Sys2Proof

/-- The number of bytes of a length, 1 to 9. -/
def Len.toNat : Len → Nat
  | .l1 => 1 | .l2 => 2 | .l3 => 3 | .l4 => 4 | .l5 => 5 | .l6 => 6 | .l7 => 7 | .l8 => 8 | .l9 => 9

/-- The 4-bit code of a length in the response fields `len` and `adv` (R28). -/
def Len.code (n : Len) : BitVec 4 := BitVec.ofNat 4 n.toNat

/-- The nine lengths, smallest first: the order of the source's scan (R70). -/
def Len.all : List Len := [.l1, .l2, .l3, .l4, .l5, .l6, .l7, .l8, .l9]

namespace Machine

/-- `MAXV[n]`, the capacity of an `n`-byte encoding (R21). -/
def maxv : Len → Word
  | .l1 => 0x7F
  | .l2 => 0x3FFF
  | .l3 => 0x1FFFFF
  | .l4 => 0xFFFFFFF
  | .l5 => 0x7FFFFFFFF
  | .l6 => 0x3FFFFFFFFFF
  | .l7 => 0x1FFFFFFFFFFFF
  | .l8 => 0xFFFFFFFFFFFFFF
  | .l9 => 0xFFFFFFFFFFFFFFFF

/-- `TAGB[n]`, the tag bits of byte 0 with zeros in the payload positions (R22). -/
def tagb : Len → Byte
  | .l1 => 0x00
  | .l2 => 0x80
  | .l3 => 0xC0
  | .l4 => 0xE0
  | .l5 => 0xF0
  | .l6 => 0xF8
  | .l7 => 0xFC
  | .l8 => 0xFE
  | .l9 => 0xFF

/-- `TAGP[n]`, the tag as an `8n`-bit integer, at most 72 bits wide (R23). -/
def tagp : Len → BitVec 72
  | .l1 => 0x0
  | .l2 => 0x8000
  | .l3 => 0xC00000
  | .l4 => 0xE0000000
  | .l5 => 0xF000000000
  | .l6 => 0xF80000000000
  | .l7 => 0xFC000000000000
  | .l8 => 0xFE00000000000000
  | .l9 => 0xFF0000000000000000

/-- `PMASK0[n]`, the payload bits that byte 0 carries (R24). -/
def pmask0 : Len → Byte
  | .l1 => 0x7F
  | .l2 => 0x3F
  | .l3 => 0x1F
  | .l4 => 0x0F
  | .l5 => 0x07
  | .l6 => 0x03
  | .l7 => 0x01
  | .l8 => 0x00
  | .l9 => 0x00

/-- The one-bits of `t` in a row from bit `n - 1` downward, up to the first zero. -/
def onesBelow (t : Byte) : Nat → Nat
  | 0 => 0
  | n + 1 => if t.getLsbD n then 1 + onesBelow t n else 0

/-- `clo8(t)`, the number of leading one-bits of a byte (00_scope.md R11). -/
def clo8 (t : Byte) : Nat := onesBelow t 8

/-- `LEN_OF_TAG[t] = clo8(t) + 1` (R25). -/
def lenOfTag (t : Byte) : Len :=
  match clo8 t with
  | 0 => .l1
  | 1 => .l2
  | 2 => .l3
  | 3 => .l4
  | 4 => .l5
  | 5 => .l6
  | 6 => .l7
  | 7 => .l8
  | _ => .l9

end Machine

end Sys2Proof
end

