-- ==== Sys2Proof/Machine/Operands.lean ====
section
/-! DEFINITION. The operand forms: lane arrays, their packing on the 72-bit buses, the effective avail,
and the fields of the 143-bit request word (20_memory.md R41 and R42, 30_encoding.md R58 and R59,
41_decoder.md R91). No operand is sign-extended, scaled or shifted on the way in (R59). -/

namespace Sys2Proof

/-- `ZERO9` (R9). -/
def Lanes.zero : Lanes := ⟨0, 0, 0, 0, 0, 0, 0, 0, 0⟩

/-- The nine lanes in stream order. -/
def Lanes.toList (b : Lanes) : List Byte := [b.b0, b.b1, b.b2, b.b3, b.b4, b.b5, b.b6, b.b7, b.b8]

/-- A window whose first lanes are `l`; a lane not written is `0x00` (R61). -/
def Lanes.ofList (l : List Byte) : Lanes :=
  ⟨l.getD 0 0, l.getD 1 0, l.getD 2 0, l.getD 3 0, l.getD 4 0, l.getD 5 0, l.getD 6 0, l.getD 7 0, l.getD 8 0⟩

/-- `b[i]`, for `i` in 0..8 (R9). There is no lane above 8. -/
def Lanes.lane (b : Lanes) (i : Fin 9) : Byte :=
  match i with
  | 0 => b.b0 | 1 => b.b1 | 2 => b.b2 | 3 => b.b3 | 4 => b.b4 | 5 => b.b5 | 6 => b.b6 | 7 => b.b7 | 8 => b.b8

/-- The 72-bit bus of a window: lane 0 is `[71:64]`, lane 8 is `[7:0]` (R42). -/
def Lanes.toBus (b : Lanes) : BitVec 72 :=
  b.b0 ++ b.b1 ++ b.b2 ++ b.b3 ++ b.b4 ++ b.b5 ++ b.b6 ++ b.b7 ++ b.b8

/-- The window on a 72-bit bus: lane `i` is `[71-8i : 64-8i]` (R42). -/
def Lanes.ofBus (w : BitVec 72) : Lanes :=
  ⟨w.extractLsb' 64 8, w.extractLsb' 56 8, w.extractLsb' 48 8, w.extractLsb' 40 8, w.extractLsb' 32 8,
   w.extractLsb' 24 8, w.extractLsb' 16 8, w.extractLsb' 8 8, w.extractLsb' 0 8⟩

namespace Machine

/-- The effective avail `min(avail, 9)` (R91): 9 to 15 all mean nine valid lanes. -/
def effAvail (avail : BitVec 4) : Nat := min avail.toNat 9

/-- A number of bytes, 0 to 9, as the 4-bit response field `adv` (R28). -/
def countCode (n : Nat) : BitVec 4 := BitVec.ofNat 4 n

/-- The request that a 143-bit request word writes: `op` at [142:140], `a` at [139:76], `b` at [75:4],
`avail` at [3:0] (R58). -/
def requestOfWord (w : BitVec 143) : Request where
  op    := w.extractLsb' 140 3
  a     := w.extractLsb' 76 64
  b     := Lanes.ofBus (w.extractLsb' 4 72)
  avail := w.extractLsb' 0 4

/-- The 143-bit request word of a request (R58). -/
def wordOfRequest (q : Request) : BitVec 143 := q.op ++ q.a ++ q.b.toBus ++ q.avail

end Machine

end Sys2Proof
end

