-- ==== Sys2Proof/Machine/Codec.lean ====
section
/-! DEFINITION. The codec functions shared by the ops: big-endian bytes, the minimal length and the
packing of 40_encoder.md, the unpacking of 41_decoder.md, the zigzag pair of 42_zigzag.md. -/

namespace Sys2Proof.Machine

/-- `BE(l)`, the unsigned integer of a byte sequence, first byte most significant (00_scope.md R9). -/
def beNat : List Byte → Nat
  | [] => 0
  | b :: rest => b.toNat * 2 ^ (8 * rest.length) + beNat rest

/-- The low `n` bytes of `w`, most significant first: `w[8(n-1)+7 : 8(n-1)]`, …, `w[7:0]` (R41). -/
def beBytes : Nat → BitVec 72 → List Byte
  | 0, _ => []
  | n + 1, w => w.extractLsb' (8 * n) 8 :: beBytes n w

/-- `LenOf(u)`, the smallest `n` with `u ≤ MAXV[n]`, by the scan from 1 up (R70). -/
def lenOf (u : Word) : Len :=
  if u ≤ maxv .l1 then .l1
  else if u ≤ maxv .l2 then .l2
  else if u ≤ maxv .l3 then .l3
  else if u ≤ maxv .l4 then .l4
  else if u ≤ maxv .l5 then .l5
  else if u ≤ maxv .l6 then .l6
  else if u ≤ maxv .l7 then .l7
  else if u ≤ maxv .l8 then .l8
  else .l9

/-- The nine-lane window of the `n`-byte encoding with payload `u` (R71): the tag prefix is ORed into
the value and the result written big-endian; for nine bytes, lane 0 is `0xFF` and the rest is the value.
Lanes `n..8` are `0x00`. -/
def packAt (n : Len) (u : Word) : Lanes :=
  match n with
  | .l9 => Lanes.ofList (0xFF :: beBytes 8 (u.setWidth 72))
  | _ => Lanes.ofList (beBytes n.toNat (tagp n ||| u.setWidth 72))

/-- `Pack(u)`, the window of the minimal encoding of `u` (R71). -/
def pack (u : Word) : Lanes := packAt (lenOf u) u

/-- `TagLen(t)`, the length a tag byte declares (41_decoder.md R90). -/
def tagLen (t : Byte) : Len := lenOfTag t

/-- `Unpack(b, L)`, the value of lanes `0..L-1` (R92): byte 0 itself for one byte; bytes 1 to 8 with no
masking for nine; in between the big-endian integer of the lanes, its tag bits masked off. -/
def unpack (b : Lanes) (n : Len) : Word :=
  match n with
  | .l1 => b.b0.setWidth 64
  | .l9 => BitVec.ofNat 64 (beNat (b.toList.drop 1))
  | _ => BitVec.ofNat 64 (beNat (b.toList.take n.toNat)) &&& maxv n

/-- `ZZE(v) = (v >>s 63) ^ (v << 1)` (R110). -/
def zigzagEncode (v : Word) : Word := (v.sshiftRight 63) ^^^ (v <<< 1)

/-- `ZZD(u) = (u >>u 1) ^ (0 - (u & 1))` (R111). -/
def zigzagDecode (u : Word) : Word := (u >>> 1) ^^^ (0 - (u &&& 1))

end Sys2Proof.Machine
end

