-- ==== Sys2Proof/Syntax.lean ====
section
/-! DEFINITION. The instruction set: one constructor per row of spec/opcode_table.json. The ISA of the
block is the command set together with the wire format (00_scope.md R1). A constructor carries exactly
the fields its row lists; a field the op does not read is no operand (30_encoding.md R59). -/

namespace Sys2Proof

/-- The eight commands (R58) and the nine wire formats (R51). The payload of a wire format is the
value of its payload bits, zero-extended to 64 bits (R52). -/
inductive Instr
  /-- `ENCU`, op 0: encode the unsigned value `a`. -/
  | encu (a : Word)
  /-- `ENCS`, op 1: encode the signed value `a`. -/
  | encs (a : Word)
  /-- `DECU`, op 2: decode an unsigned value from the window `b`, of which `avail` lanes are valid. -/
  | decu (b : Lanes) (avail : BitVec 4)
  /-- `DECS`, op 3: decode a signed value. -/
  | decs (b : Lanes) (avail : BitVec 4)
  /-- `ZZE`, op 4: zigzag-encode `a`. -/
  | zze (a : Word)
  /-- `ZZD`, op 5: zigzag-decode `a`. -/
  | zzd (a : Word)
  /-- `LENU`, op 6: the minimal length of `a` and that length's table entries. -/
  | lenu (a : Word)
  /-- `TAGLEN`, op 7: the length that the tag byte `b[0]` declares and that length's table entries. -/
  | taglen (b0 : Byte)
  /-- `VARINT_L1`: byte 0 is `0xxxxxxx`. -/
  | varintL1 (payload : Word)
  /-- `VARINT_L2`: byte 0 is `10xxxxxx`, one continuation byte. -/
  | varintL2 (payload : Word)
  /-- `VARINT_L3`: byte 0 is `110xxxxx`, two continuation bytes. -/
  | varintL3 (payload : Word)
  /-- `VARINT_L4`: byte 0 is `1110xxxx`, three continuation bytes. -/
  | varintL4 (payload : Word)
  /-- `VARINT_L5`: byte 0 is `11110xxx`, four continuation bytes. -/
  | varintL5 (payload : Word)
  /-- `VARINT_L6`: byte 0 is `111110xx`, five continuation bytes. -/
  | varintL6 (payload : Word)
  /-- `VARINT_L7`: byte 0 is `1111110x`, six continuation bytes. -/
  | varintL7 (payload : Word)
  /-- `VARINT_L8`: byte 0 is `11111110`, seven continuation bytes. -/
  | varintL8 (payload : Word)
  /-- `VARINT_L9`: byte 0 is `11111111`, eight continuation bytes. -/
  | varintL9 (payload : Word)
deriving DecidableEq, Repr

end Sys2Proof
end

