-- ==== Sys2Proof/Decode.lean ====
section
/-! DEFINITION. The decoder and the encoder of instructions, written from the encoding tables of
30_encoding.md: the wire formats of R51 and R52 (part A) and the request word of R58 (part B). The wire
formats are read here by the match and mask of R51, not by the leading-one count that the machine uses. -/

namespace Sys2Proof

open Machine (beNat beBytes requestOfWord wordOfRequest pmask0)

/-- An instruction as it is presented: a request word, or the bytes of an encoded integer. -/
inductive Encoded
  /-- A 143-bit request word (R58). -/
  | command (w : BitVec 143)
  /-- Bytes in stream order, byte 0 first (R50). -/
  | wire (bytes : List Byte)
deriving DecidableEq, Repr

/-- Why a presented form is no instruction. -/
inductive DecodeError
  /-- No byte at all: an encoding has 1 to 9 bytes (R50). -/
  | noByte
  /-- Byte 0 matches no row of R51. R55 says that this happens for no byte. -/
  | noWireFormat (t : Byte)
  /-- Byte 0 declares `need` bytes and only `have_` are there (R51). -/
  | tooShort (need : Len) (have_ : Nat)
  /-- Bytes are left over after one encoding: it has exactly the length byte 0 declares (R50). -/
  | trailing (rest : List Byte)
deriving DecidableEq, Repr

/-! ### Part A: the wire formats -/

/-- One row of the table of R51. -/
structure WireRow where
  len     : Len
  pattern : Byte
  mask    : Byte
deriving DecidableEq, Repr

/-- The nine rows of R51. -/
def wireRows : List WireRow :=
  [⟨.l1, 0x00, 0x80⟩, ⟨.l2, 0x80, 0xC0⟩, ⟨.l3, 0xC0, 0xE0⟩, ⟨.l4, 0xE0, 0xF0⟩, ⟨.l5, 0xF0, 0xF8⟩,
   ⟨.l6, 0xF8, 0xFC⟩, ⟨.l7, 0xFC, 0xFE⟩, ⟨.l8, 0xFE, 0xFF⟩, ⟨.l9, 0xFF, 0xFF⟩]

/-- `byte 0 & mask = match` (R51). -/
def WireRow.accepts (r : WireRow) (t : Byte) : Bool := t &&& r.mask == r.pattern

/-- The row that byte 0 selects. -/
def wireRowOf (t : Byte) : Option WireRow := wireRows.find? (·.accepts t)

/-- The value an encoding of length `n` carries (R52): the payload bits of byte 0 followed by the
continuation bytes, big-endian. Nine bytes need no case of their own, since then byte 0 carries no
payload bit (`PMASK0[9] = 0`). -/
def wirePayload (n : Len) (b0 : Byte) (cont : List Byte) : Word :=
  BitVec.ofNat 64 (beNat ((b0 &&& pmask0 n) :: cont))

/-- The wire instruction of a length. -/
def Instr.ofWire (n : Len) (payload : Word) : Instr :=
  match n with
  | .l1 => .varintL1 payload
  | .l2 => .varintL2 payload
  | .l3 => .varintL3 payload
  | .l4 => .varintL4 payload
  | .l5 => .varintL5 payload
  | .l6 => .varintL6 payload
  | .l7 => .varintL7 payload
  | .l8 => .varintL8 payload
  | .l9 => .varintL9 payload

/-- Reads one encoded integer from the front of a byte sequence; answers it with the bytes after it.
The length is known from byte 0 alone (R50, R57). -/
def decodeWire : List Byte → Except DecodeError (Instr × List Byte)
  | [] => .error .noByte
  | b0 :: rest =>
    match wireRowOf b0 with
    | none => .error (.noWireFormat b0)
    | some r =>
      if rest.length + 1 < r.len.toNat then .error (.tooShort r.len (rest.length + 1))
      else .ok (Instr.ofWire r.len (wirePayload r.len b0 (rest.take (r.len.toNat - 1))),
        rest.drop (r.len.toNat - 1))

/-! ### Part B: the request word -/

/-- The instruction of a request, by its `op` (R58). Each op takes the fields it reads and no other
(R59). The last arm is op 7: an op has three bits, and all eight values are defined (R60). -/
def decodeRequest (q : Request) : Instr :=
  match q.op.toNat with
  | 0 => .encu q.a
  | 1 => .encs q.a
  | 2 => .decu q.b q.avail
  | 3 => .decs q.b q.avail
  | 4 => .zze q.a
  | 5 => .zzd q.a
  | 6 => .lenu q.a
  | _ => .taglen q.b.b0

/-- The decoder: total, rejecting by name. No request word is rejected (R60). -/
def decode : Encoded → Except DecodeError Instr
  | .command w => .ok (decodeRequest (requestOfWord w))
  | .wire bytes =>
    match decodeWire bytes with
    | .error e => .error e
    | .ok (i, []) => .ok i
    | .ok (_, b :: rest) => .error (.trailing (b :: rest))

/-! ### The encoder -/

/-- The tag bits of byte 0, by R51's match column. -/
def wirePattern : Len → Byte
  | .l1 => 0x00
  | .l2 => 0x80
  | .l3 => 0xC0
  | .l4 => 0xE0
  | .l5 => 0xF0
  | .l6 => 0xF8
  | .l7 => 0xFC
  | .l8 => 0xFE
  | .l9 => 0xFF

/-- The bytes of the encoding of length `n` with a payload: byte 0 holds the tag and the payload bits
above the continuation bytes, which follow big-endian (R51, R52). -/
def wireBytes (n : Len) (payload : Word) : List Byte :=
  (wirePattern n ||| (payload >>> (8 * (n.toNat - 1))).setWidth 8)
    :: beBytes (n.toNat - 1) (payload.setWidth 72)

/-- A request word; the fields the op does not read are 0. -/
def commandWord (op : BitVec 3) (a : Word) (b : Lanes) (avail : BitVec 4) : Encoded :=
  .command (wordOfRequest ⟨op, a, b, avail⟩)

/-- The encoder. -/
def encode : Instr → Encoded
  | .encu a => commandWord 0 a Lanes.zero 0
  | .encs a => commandWord 1 a Lanes.zero 0
  | .decu b avail => commandWord 2 0 b avail
  | .decs b avail => commandWord 3 0 b avail
  | .zze a => commandWord 4 a Lanes.zero 0
  | .zzd a => commandWord 5 a Lanes.zero 0
  | .lenu a => commandWord 6 a Lanes.zero 0
  | .taglen t => commandWord 7 0 (Lanes.ofList [t]) 0
  | .varintL1 p => .wire (wireBytes .l1 p)
  | .varintL2 p => .wire (wireBytes .l2 p)
  | .varintL3 p => .wire (wireBytes .l3 p)
  | .varintL4 p => .wire (wireBytes .l4 p)
  | .varintL5 p => .wire (wireBytes .l5 p)
  | .varintL6 p => .wire (wireBytes .l6 p)
  | .varintL7 p => .wire (wireBytes .l7 p)
  | .varintL8 p => .wire (wireBytes .l8 p)
  | .varintL9 p => .wire (wireBytes .l9 p)

/-! ### The opcode table's words -/

/-- The lowest `n` bytes of a number, the least significant first. -/
def bytesOf : Nat → Nat → List Byte
  | 0, _ => []
  | n + 1, w => BitVec.ofNat 8 w :: bytesOf n (w / 256)

/-- How a word that the opcode table numbers is presented: a row of at most 72 bits is a wire format,
whose bytes follow one another from bit 0 up (byte 0 is bits 7..0); a wider row is the request word. -/
def tableWordIsWire (nbits : Nat) : Bool := decide (nbits ≤ 72)

/-- What the decoder reads from an opcode-table word. A request word has 143 bits: a number with a
higher bit is none (R58). -/
def decodeTableWord (nbits w : Nat) : Option Instr :=
  if tableWordIsWire nbits then
    match decodeWire (bytesOf 9 w) with
    | .ok (i, _) => some i
    | .error _ => none
  else if w < 2 ^ 143 then some (decodeRequest (requestOfWord (BitVec.ofNat 143 w)))
  else none

end Sys2Proof
end

