-- ==== Sys2Proof/Machine/Flags.lean ====
section
/-! DEFINITION. The block's only condition code, the `status` of a response (10_state.md R33,
60_exceptions.md R120 to R124): how a decode finds it, and its code on the port. -/

namespace Sys2Proof

/-- The 2-bit code of a status (R120). -/
def Status.code : Status → BitVec 2
  | .ok => 0
  | .empty => 1
  | .trunc => 2

/-- The status that a 2-bit port value stands for. Code 3 is never produced and stands for none: it is
refused (R120, item I8). -/
def Status.ofCode (c : BitVec 2) : Option Status :=
  if c = 0 then some .ok else if c = 1 then some .empty else if c = 2 then some .trunc else none

namespace Machine

/-- The status of a decode, in the order of R123: `EMPTY` if no lane is available (lane 0 is not read),
`TRUNC` if byte 0 declares more bytes than are available, else `OK`. -/
def decodeStatus (b : Lanes) (avail : BitVec 4) : Status :=
  if effAvail avail = 0 then .empty
  else if effAvail avail < (tagLen b.b0).toNat then .trunc
  else .ok

end Machine

end Sys2Proof
end

