-- ==== Sys2Proof/Config.lean ====
section
/-! DEFINITION. What one realization fixes (the open parameters of 00_scope.md R7) and the values the
spec leaves unspecified before the first reset (R141). Nothing here has a value that a proof can see. -/

namespace Sys2Proof

/-- `DEPTH` and `LATENCY` (R7). Both are integers of at least 1, so each is held as its predecessor:
a parameter of 0 cannot be written down. -/
structure Params where
  depthPred   : Nat
  latencyPred : Nat
deriving DecidableEq, Repr, Inhabited

/-- `DEPTH`, the capacity of `pend` (R7, R29). -/
def Params.depth (c : Params) : Nat := c.depthPred + 1

/-- `LATENCY`, the edges from the acceptance of a request to the earliest delivery of its response
(R7, R146). -/
def Params.latency (c : Params) : Nat := c.latencyPred + 1

/-- Which free value: the `count`-th of a stream. Streams with different numbers are unrelated, so two
instances that take different streams have unrelated free values (log entry 4). -/
structure FreeIndex where
  stream : Nat
  count  : Nat
deriving DecidableEq, Repr

/-- The free value after this one, of the same stream. -/
def FreeIndex.next (i : FreeIndex) : FreeIndex := { i with count := i.count + 1 }

namespace Config

/-- The parameters of the realization that `State.reset` describes. R7 leaves them open: no body
(log entry 2). -/
opaque params : Params

/-- `INSTANCES - 1` (R7, R128): left open, no body (log entry 2). -/
opaque extraInstances : Nat

/-- `INSTANCES`, at least 1 (R7). -/
def instances : Nat := extraInstances + 1

/-- What `pend` holds before the first reset: unspecified (R141), so a free value for each edge and
each stream. Whether two instances hold the same is left open too: each takes its own stream
(log entry 4). -/
opaque powerOnPend : FreeIndex → List Pending

/-- The level of `req_ready` before the first reset: unspecified (R141), a free value as for `pend`
(log entry 4). -/
opaque powerOnReqReady : FreeIndex → Bool

/-- The level of `rsp_valid` before the first reset: unspecified (R141), a free value as for `pend`
(log entry 4). -/
opaque powerOnRspValid : FreeIndex → Bool

end Config

end Sys2Proof
end

