-- ==== Sys2Proof/Machine/State.lean ====
section
/-! DEFINITION. The state of one instance of the block, its input samples, and the reasons a step can
stop. The block has no register, program counter, memory, mode or control register (10_state.md R32,
20_memory.md R40), so State holds none: its mutable state is the queue `pend` (R29). -/

namespace Sys2Proof.Machine

/-- The input signals of the ports as one rising edge of `clk` samples them (R35).
`hostReads` is no signal: it says that the host reads the `rsp_*` data fields at this edge, which is
its fault while they hold no value (R34, R140, item I9; log entry 6). -/
structure PortIn where
  rst       : Bool
  reqValid  : Bool
  reqOp     : BitVec 3
  reqA      : Word
  reqB      : BitVec 72
  reqAvail  : BitVec 4
  rspReady  : Bool
  hostReads : Bool
deriving DecidableEq, Repr

/-- The `rsp_*` data fields on the port (R35). -/
structure RspPins where
  status : BitVec 2
  value  : Word
  len    : BitVec 4
  adv    : BitVec 4
  bytes  : BitVec 72
deriving DecidableEq, Repr

/-- The output signals (R35). `rsp` is `none` while the data fields hold no value (R34, R140). -/
structure PortOut where
  reqReady : Bool
  rspValid : Bool
  rsp      : Option RspPins
deriving DecidableEq, Repr

/-- The state. -/
structure State where
  /-- `DEPTH` and `LATENCY` (R7). No step writes them. -/
  params    : Params
  /-- A reset edge has happened since power-on. Before it the contents of `pend` are unspecified (R141). -/
  live      : Bool
  /-- The queue of responses accepted and not yet delivered, oldest first (R29). -/
  pend      : List Pending
  /-- The model's own: what the host drives at the coming edges, the next edge first (log entry 1). -/
  inputs    : List PortIn
  /-- The model's own: the responses handed to the host so far, the first one first (R31; log entry 1). -/
  delivered : List Response
  /-- The model's own: the free value that the next edge before the first reset uses, of the stream that
  this instance takes its free values from (log entry 4). -/
  fresh     : FreeIndex
deriving DecidableEq, Repr

/-- Why a step stops. No instruction raises one of these: no request traps (60_exceptions.md R122). -/
inductive Fault
  /-- Raised by the clock edge when the host reads the `rsp_*` fields while `rsp_valid = 0`: they hold
  no value, and such a read is a fault of the host (R34, R140, item I9). Safe. -/
  | rspReadWhileInvalid
  /-- Raised by the clock edge when the host reads the `rsp_*` fields before the first reset, when every
  output is unspecified (R141, item I9). Safe. -/
  | readBeforeReset
deriving DecidableEq, Repr

/-- Why there is no meaning. -/
inductive Refusal
  /-- An instruction whose arm in Dispatch.lean has no meaning yet, by its mnemonic. No arm raises it. Safe. -/
  | notModelled (mnemonic : String)
  /-- Raised by `readStatus`, the host's reading of the 2-bit port value: code 3 is never produced and
  stands for no status (R120, item I8). Safe. -/
  | reservedStatusCode
deriving DecidableEq, Repr

/-- The state right after a reset edge, for given parameters: `pend` is empty (R34, R140). -/
def State.resetWith (c : Params) : State where
  params    := c
  live      := true
  pend      := []
  inputs    := []
  delivered := []
  fresh     := ⟨0, 0⟩

/-- The machine right after reset (R34, R142), with the parameters of the realization. -/
def State.reset : State := State.resetWith Config.params

/-- The machine at power-on, before the first reset: `pend` holds something unspecified (R141), taken
from the given stream of free values. Machines with different streams are unrelated (log entry 4). -/
def State.powerOn (c : Params) (stream : Nat) : State where
  params    := c
  live      := false
  pend      := Config.powerOnPend ⟨stream, 0⟩
  inputs    := []
  delivered := []
  fresh     := ⟨stream, 1⟩

end Sys2Proof.Machine
end

