-- ==== Sys2Proof/Machine/Ops.lean ====
section
/-! DEFINITION. The transitions of the core and the port's output levels: `accept` and `deliver`
(10_state.md R30, R31), reset (70_reset_and_hazards.md R140), the passing of an edge (R146), and the
edges before the first reset (R141).

TAKING AN EXCEPTION. There is none to take: no request raises an exception, trap or fault that changes
control flow or saves state (60_exceptions.md R122), and there is no trap entry and no trap return
(R126). An error is reported in a response's `status`, by `decodeStatus` in Flags.lean. -/

namespace Sys2Proof.Machine

/-- `|pend| ≥ DEPTH`: no entry is free (R30, R35). -/
def State.full (s : State) : Bool := decide (s.params.depth ≤ s.pend.length)

/-- `rsp_valid` after a reset, with `rst = 0`: `pend` is non-empty and at least `LATENCY` rising edges
have passed since its head was accepted (R35). -/
def State.headReady (s : State) : Bool :=
  match s.pend with
  | [] => false
  | e :: _ => decide (s.params.latency ≤ e.age)

/-- The level of `req_ready` (R35): 0 while `rst = 1` (R140), unspecified before the first reset (R141). -/
def State.reqReady (s : State) (rst : Bool) : Bool :=
  if rst then false else if s.live then !s.full else Config.powerOnReqReady s.fresh

/-- The level of `rsp_valid` (R35): 0 while `rst = 1` (R140), unspecified before the first reset (R141). -/
def State.rspValid (s : State) (rst : Bool) : Bool :=
  if rst then false else if s.live then s.headReady else Config.powerOnRspValid s.fresh

/-- A response on the `rsp_*` signals (R35, R42). -/
def Response.pins (r : Response) : RspPins where
  status := r.status.code
  value  := r.value
  len    := r.len
  adv    := r.adv
  bytes  := r.bytes.toBus

/-- The `rsp_*` data fields: `head(pend)` while `rsp_valid = 1`, and no value otherwise or before the
first reset (R34, R35, R140, R141). -/
def State.rspFields (s : State) (rst : Bool) : Option RspPins :=
  if s.live && s.rspValid rst then s.pend.head?.map fun e => Response.pins e.rsp else none

/-- The output signals, for the level of `rst` (R35). -/
def State.outputs (s : State) (rst : Bool) : PortOut where
  reqReady := s.reqReady rst
  rspValid := s.rspValid rst
  rsp      := s.rspFields rst

/-- The host's reading of `rsp_status`; code 3 is refused by name (R120, item I8). -/
def readStatus (c : BitVec 2) : Except Refusal Status :=
  match Status.ofCode c with
  | some st => .ok st
  | none => .error .reservedStatusCode

/-- A new entry at the end of `pend`; the accepting edge is the first of its age (R30, R35). -/
def State.push (s : State) (r : Response) : State := { s with pend := s.pend ++ [⟨r, 1⟩] }

/-- `accept` with the response of the request (R30): enabled when `|pend| < DEPTH`; otherwise the
request waits and nothing changes (R36). -/
def accept (r : Response) (s : State) : Host.Outcome State Fault Refusal :=
  .next (if s.full then s else s.push r)

/-- `deliver` (R31): hands `head(pend)` to the host and drops it from `pend`. -/
def deliver (s : State) : State :=
  match s.pend with
  | [] => s
  | e :: rest => { s with pend := rest, delivered := s.delivered ++ [e.rsp] }

/-- One more rising edge has passed for each entry of `pend` (R35, R146). -/
def passEdge (s : State) : State := { s with pend := s.pend.map fun e => { e with age := e.age + 1 } }

/-- A reset edge (R140): every response not yet delivered is discarded, and nothing is accepted or
delivered. It also ends the time before the first reset (R141). -/
def resetEdge (s : State) : State := { s with live := true, pend := [] }

/-- An edge with `rst = 0` before the first reset: what `pend` holds stays unspecified, so it takes a
fresh free value, whatever the host drives; nothing the host may use is delivered (R141, item I9). -/
def unspecifiedEdge (s : State) : State :=
  { s with pend := Config.powerOnPend s.fresh, fresh := s.fresh.next }

/-- The state in which an edge with `rst = 0` accepts its request: a delivery at the same edge removes
the old head first, and the edge passes for the entries that stay (R36). -/
def deliverPhase (p : PortIn) (s : State) : State :=
  passEdge (if p.rspReady && s.headReady then deliver s else s)

end Sys2Proof.Machine
end

