-- ==== Sys2Proof/Machine/Encoder.lean ====
section
/-! DEFINITION. varint_encoder: `ENCU`, `ENCS` and `LENU` (40_encoder.md R72 to R74). Each op is a
response, a function of its operands alone (10_state.md R30), and its acceptance. -/

namespace Sys2Proof.Machine

/-- The response that encodes the unsigned `u` (R72): the value, its minimal length, and its bytes. -/
def encodedResponse (u : Word) : Response where
  status := .ok
  value  := u
  len    := (lenOf u).code
  adv    := (lenOf u).code
  bytes  := pack u

/-- A length's table entries (R74, R96): capacity in `value`, tag pattern in lane 0. -/
def tableResponse (n : Len) : Response where
  status := .ok
  value  := maxv n
  len    := n.code
  adv    := 0
  bytes  := Lanes.ofList [tagb n]

/-- `ENCU` (R72). -/
def encuResponse (a : Word) : Response := encodedResponse a

/-- `ENCS` (R73): `value` is the zigzag pattern actually encoded. -/
def encsResponse (a : Word) : Response := encodedResponse (zigzagEncode a)

/-- `LENU` (R74). -/
def lenuResponse (a : Word) : Response := tableResponse (lenOf a)

/-- `ENCU a` (R72). -/
def execEncu (a : Word) (s : State) : Host.Outcome State Fault Refusal := accept (encuResponse a) s

/-- `ENCS a` (R73). -/
def execEncs (a : Word) (s : State) : Host.Outcome State Fault Refusal := accept (encsResponse a) s

/-- `LENU a` (R74). -/
def execLenu (a : Word) (s : State) : Host.Outcome State Fault Refusal := accept (lenuResponse a) s

end Sys2Proof.Machine
end

