-- ==== Sys2Proof/Machine/Decoder.lean ====
section
/-! DEFINITION. varint_decoder: `DECU`, `DECS` and `TAGLEN` (41_decoder.md R94 to R96). Minimality is
not checked: an overlong encoding decodes to the value it carries (R97). -/

namespace Sys2Proof.Machine

/-- The decode of a window (R94). What each outcome records is R124: on `TRUNC` the declared length and
the available count, on `EMPTY` nothing. -/
def decodeResponse (b : Lanes) (avail : BitVec 4) : Response :=
  match decodeStatus b avail with
  | .empty => ⟨.empty, 0, 0, 0, Lanes.zero⟩
  | .trunc => ⟨.trunc, 0, (tagLen b.b0).code, countCode (effAvail avail), Lanes.zero⟩
  | .ok => ⟨.ok, unpack b (tagLen b.b0), (tagLen b.b0).code, (tagLen b.b0).code, Lanes.zero⟩

/-- `DECU` (R94). -/
def decuResponse (b : Lanes) (avail : BitVec 4) : Response := decodeResponse b avail

/-- `DECS` (R95): as `DECU`, with the value zigzag-decoded on `OK` and 0 otherwise. -/
def decsResponse (b : Lanes) (avail : BitVec 4) : Response :=
  let r := decodeResponse b avail
  { r with value := if r.status = .ok then zigzagDecode r.value else 0 }

/-- `TAGLEN` (R96). -/
def taglenResponse (b0 : Byte) : Response := tableResponse (tagLen b0)

/-- `DECU b, avail` (R94). -/
def execDecu (b : Lanes) (avail : BitVec 4) (s : State) : Host.Outcome State Fault Refusal :=
  accept (decuResponse b avail) s

/-- `DECS b, avail` (R95). -/
def execDecs (b : Lanes) (avail : BitVec 4) (s : State) : Host.Outcome State Fault Refusal :=
  accept (decsResponse b avail) s

/-- `TAGLEN b0` (R96). -/
def execTaglen (b0 : Byte) (s : State) : Host.Outcome State Fault Refusal := accept (taglenResponse b0) s

end Sys2Proof.Machine
end

