-- ==== Sys2Proof/Machine/Wire.lean ====
section
/-! DEFINITION. The nine wire formats as instructions (30_encoding.md R51, R52). An encoded integer is
no command of its own: it reaches the block as the window of a decode (R62, 20_memory.md R45). Its
effect is therefore that of the decoder on exactly its bytes: `DECU` with the encoding in lanes
`0..L-1` and `avail = L` (R94; log entry 5). -/

namespace Sys2Proof.Machine

/-- The decoder's response to the encoding of length `n` with a payload, all of it available. -/
def wireResponse (n : Len) (payload : Word) : Response := decodeResponse (packAt n payload) n.code

/-- `VARINT_L1`: the decoder takes an encoding of 1 byte(s) (R51, R52, R94). -/
def execVarintL1 (payload : Word) (s : State) : Host.Outcome State Fault Refusal :=
  accept (wireResponse .l1 payload) s

/-- `VARINT_L2`: the decoder takes an encoding of 2 byte(s) (R51, R52, R94). -/
def execVarintL2 (payload : Word) (s : State) : Host.Outcome State Fault Refusal :=
  accept (wireResponse .l2 payload) s

/-- `VARINT_L3`: the decoder takes an encoding of 3 byte(s) (R51, R52, R94). -/
def execVarintL3 (payload : Word) (s : State) : Host.Outcome State Fault Refusal :=
  accept (wireResponse .l3 payload) s

/-- `VARINT_L4`: the decoder takes an encoding of 4 byte(s) (R51, R52, R94). -/
def execVarintL4 (payload : Word) (s : State) : Host.Outcome State Fault Refusal :=
  accept (wireResponse .l4 payload) s

/-- `VARINT_L5`: the decoder takes an encoding of 5 byte(s) (R51, R52, R94). -/
def execVarintL5 (payload : Word) (s : State) : Host.Outcome State Fault Refusal :=
  accept (wireResponse .l5 payload) s

/-- `VARINT_L6`: the decoder takes an encoding of 6 byte(s) (R51, R52, R94). -/
def execVarintL6 (payload : Word) (s : State) : Host.Outcome State Fault Refusal :=
  accept (wireResponse .l6 payload) s

/-- `VARINT_L7`: the decoder takes an encoding of 7 byte(s) (R51, R52, R94). -/
def execVarintL7 (payload : Word) (s : State) : Host.Outcome State Fault Refusal :=
  accept (wireResponse .l7 payload) s

/-- `VARINT_L8`: the decoder takes an encoding of 8 byte(s) (R51, R52, R94). -/
def execVarintL8 (payload : Word) (s : State) : Host.Outcome State Fault Refusal :=
  accept (wireResponse .l8 payload) s

/-- `VARINT_L9`: the decoder takes an encoding of 9 byte(s) (R51, R52, R94). -/
def execVarintL9 (payload : Word) (s : State) : Host.Outcome State Fault Refusal :=
  accept (wireResponse .l9 payload) s

end Sys2Proof.Machine
end

