-- ==== Sys2Proof/Machine/Zigzag.lean ====
section
/-! DEFINITION. zigzag_transform: `ZZE` and `ZZD` (42_zigzag.md R112, R113). -/

namespace Sys2Proof.Machine

/-- A response that is a value and nothing else: no length, no bytes (R112, R113). -/
def valueResponse (v : Word) : Response := ⟨.ok, v, 0, 0, Lanes.zero⟩

/-- `ZZE` (R112). -/
def zzeResponse (a : Word) : Response := valueResponse (zigzagEncode a)

/-- `ZZD` (R113). -/
def zzdResponse (a : Word) : Response := valueResponse (zigzagDecode a)

/-- `ZZE a` (R112). -/
def execZze (a : Word) (s : State) : Host.Outcome State Fault Refusal := accept (zzeResponse a) s

/-- `ZZD a` (R113). -/
def execZzd (a : Word) (s : State) : Host.Outcome State Fault Refusal := accept (zzdResponse a) s

end Sys2Proof.Machine
end

