-- ==== Sys2Proof/Machine/Dispatch.lean ====
section
/-! DEFINITION. One arm per instruction, each a direct call of its meaning. -/

namespace Sys2Proof.Machine

def exec (i : Instr) (s : State) : Host.Outcome State Fault Refusal :=
  match i with
  | .encu a => Sys2Proof.Machine.execEncu a s
  | .encs a => Sys2Proof.Machine.execEncs a s
  | .decu b avail => Sys2Proof.Machine.execDecu b avail s
  | .decs b avail => Sys2Proof.Machine.execDecs b avail s
  | .zze a => Sys2Proof.Machine.execZze a s
  | .zzd a => Sys2Proof.Machine.execZzd a s
  | .lenu a => Sys2Proof.Machine.execLenu a s
  | .taglen b0 => Sys2Proof.Machine.execTaglen b0 s
  | .varintL1 payload => Sys2Proof.Machine.execVarintL1 payload s
  | .varintL2 payload => Sys2Proof.Machine.execVarintL2 payload s
  | .varintL3 payload => Sys2Proof.Machine.execVarintL3 payload s
  | .varintL4 payload => Sys2Proof.Machine.execVarintL4 payload s
  | .varintL5 payload => Sys2Proof.Machine.execVarintL5 payload s
  | .varintL6 payload => Sys2Proof.Machine.execVarintL6 payload s
  | .varintL7 payload => Sys2Proof.Machine.execVarintL7 payload s
  | .varintL8 payload => Sys2Proof.Machine.execVarintL8 payload s
  | .varintL9 payload => Sys2Proof.Machine.execVarintL9 payload s

end Sys2Proof.Machine
end

