-- ==== Sys2Proof/Machine/Edge.lean ====
section
/-! DEFINITION. One rising edge of `clk` with sampled inputs (10_state.md R36, 70_reset_and_hazards.md
R140, R141). -/

namespace Sys2Proof.Machine

/-- The inputs of a host that drives nothing: `rst`, `req_valid` and `rsp_ready` are 0. -/
def PortIn.idle : PortIn := ⟨false, false, 0, 0, 0, 0, false, false⟩

/-- The request on the port, its fields sampled together at the edge (R36, R44). -/
def PortIn.request (p : PortIn) : Request := ⟨p.reqOp, p.reqA, Lanes.ofBus p.reqB, p.reqAvail⟩

/-- An edge at which the host does nothing but present a request. -/
def PortIn.present (q : Request) : PortIn := ⟨false, true, q.op, q.a, q.b.toBus, q.avail, false, false⟩

/-- The host reads the `rsp_*` fields at this edge although they hold no value (R34, R140, item I9). -/
def badRead (p : PortIn) (s : State) : Bool := p.hostReads && (s.rspFields p.rst).isNone

/-- The fault of such a read. -/
def badReadFault (s : State) : Fault := if s.live then .rspReadWhileInvalid else .readBeforeReset

/-- The edge takes the request on the port: `rst = 0`, `req_valid = 1` and `req_ready = 1`, after a
reset (R36). `req_ready` is the level before the edge, so a delivery at the same edge does not free an
entry for it. -/
def accepts (p : PortIn) (s : State) : Bool := p.reqValid && s.live && s.reqReady p.rst

/-- One rising edge (R36, R140, R141; log entries 8 and 9). -/
def edge (p : PortIn) (s : State) : Host.Outcome State Fault Refusal :=
  if badRead p s then .fault (badReadFault s)
  else if p.rst then .next (resetEdge s)
  else if !s.live then .next (unspecifiedEdge s)
  else if accepts p s then exec (decodeRequest p.request) (deliverPhase p s)
  else .next (deliverPhase p s)

/-- What the host drives at the next edge. After the last edge listed it drives nothing (log entry 1). -/
def State.nextInput (s : State) : PortIn := s.inputs.headD PortIn.idle

/-- The state with the next edge's inputs taken off the list. -/
def State.takeInput (s : State) : State := { s with inputs := s.inputs.tail }

/-- The request that presents an opcode-table word: the request word's own fields, or for a wire format
a decode of its bytes with `avail` the length that byte 0 declares (R58, R62). -/
def tableWordRequest (nbits w : Nat) : Request :=
  if tableWordIsWire nbits then
    let b := Lanes.ofList (bytesOf 9 w)
    ⟨2, 0, b, (tagLen b.b0).code⟩
  else requestOfWord (BitVec.ofNat 143 w)

end Sys2Proof.Machine
end

