-- ==== Sys2Proof/Machine/Step.lean ====
section
/-! DEFINITION. One step: the next rising edge of `clk`. -/

namespace Sys2Proof.Machine

/-- One step of the machine: the edge that samples the next inputs. -/
def step (s : State) : Host.Outcome State Fault Refusal := edge s.nextInput s.takeInput

/-- The state with an edge put first at which the host presents the opcode-table word as a request, and
does nothing else. -/
def State.withFetchWord (s : State) (nbits w : Nat) : State :=
  { s with inputs := PortIn.present (tableWordRequest nbits w) :: s.inputs }

end Sys2Proof.Machine
end

