-- ==== Sys2Proof/Machine/Respond.lean ====
section
/-! DEFINITION. `Respond(req)`, the response of a request as a pure function, selected by `op` through
the table of 30_encoding.md R58 (10_state.md R30). It is written from the request's fields, beside the
route of decoding a request and running its instruction. -/

namespace Sys2Proof.Machine

/-- `Respond(req)` (R30). The last arm is op 7. -/
def respond (q : Request) : Response :=
  match q.op.toNat with
  | 0 => encuResponse q.a
  | 1 => encsResponse q.a
  | 2 => decuResponse q.b q.avail
  | 3 => decsResponse q.b q.avail
  | 4 => zzeResponse q.a
  | 5 => zzdResponse q.a
  | 6 => lenuResponse q.a
  | _ => taglenResponse q.b.b0

end Sys2Proof.Machine
end

