-- ==== Sys2Proof/Machine/Assembler.lean ====
section
/-! DEFINITION. The notation of requests and responses (30_encoding.md R61), as the parts that a line is
written with: its mnemonic, its literals and its lists of lanes. How they are spelled in characters is
no part of it. -/

namespace Sys2Proof.Machine

/-- An `<i64>`: a signed decimal, or a hexadecimal literal read as a two's-complement pattern (R61). -/
inductive I64Literal
  | decimal (v : Int)
  | pattern (n : Nat)
deriving DecidableEq, Repr

/-- A request as written (R61). A `<u64>` is a number, a lane list is the lanes written, from lane 0. -/
inductive AsmLine
  | encu (a : Nat)
  | encs (a : I64Literal)
  | zze (a : I64Literal)
  | zzd (a : Nat)
  | lenu (a : Nat)
  | decu (lanes : List Byte) (avail : Nat)
  | decs (lanes : List Byte) (avail : Nat)
  | taglen (h0 : Byte)
deriving DecidableEq, Repr

/-- The pattern of a `<u64>`; a number that 64 bits do not hold is none. -/
def u64Literal (n : Nat) : Option Word := if n < 2 ^ 64 then some (BitVec.ofNat 64 n) else none

/-- The pattern of an `<i64>`; a number outside the range is none. -/
def I64Literal.word : I64Literal → Option Word
  | .decimal v => if -(2 ^ 63) ≤ v ∧ v < 2 ^ 63 then some (BitVec.ofInt 64 v) else none
  | .pattern n => u64Literal n

/-- A window and its `avail` as written: at most nine lanes, lanes not written `0x00`, and a 4-bit count. -/
def windowLiteral (lanes : List Byte) (avail : Nat) : Option (Lanes × BitVec 4) :=
  if lanes.length ≤ 9 ∧ avail < 16 then some (Lanes.ofList lanes, BitVec.ofNat 4 avail) else none

/-- The request that a line stands for, with its op (R58); fields the line does not write are 0. -/
def assemble : AsmLine → Option Request
  | .encu a => (u64Literal a).map fun w => ⟨0, w, Lanes.zero, 0⟩
  | .encs a => a.word.map fun w => ⟨1, w, Lanes.zero, 0⟩
  | .zze a => a.word.map fun w => ⟨4, w, Lanes.zero, 0⟩
  | .zzd a => (u64Literal a).map fun w => ⟨5, w, Lanes.zero, 0⟩
  | .lenu a => (u64Literal a).map fun w => ⟨6, w, Lanes.zero, 0⟩
  | .decu l n => (windowLiteral l n).map fun w => ⟨2, 0, w.1, w.2⟩
  | .decs l n => (windowLiteral l n).map fun w => ⟨3, 0, w.1, w.2⟩
  | .taglen t => some ⟨7, 0, Lanes.ofList [t], 0⟩

/-- The line that writes a command; a wire format is none (R61, R62). -/
def lineOf : Instr → Option AsmLine
  | .encu a => some (.encu a.toNat)
  | .encs a => some (.encs (.decimal a.toInt))
  | .decu b n => some (.decu b.toList n.toNat)
  | .decs b n => some (.decs b.toList n.toNat)
  | .zze a => some (.zze (.decimal a.toInt))
  | .zzd a => some (.zzd a.toNat)
  | .lenu a => some (.lenu a.toNat)
  | .taglen t => some (.taglen t)
  | .varintL1 _ => none
  | .varintL2 _ => none
  | .varintL3 _ => none
  | .varintL4 _ => none
  | .varintL5 _ => none
  | .varintL6 _ => none
  | .varintL7 _ => none
  | .varintL8 _ => none
  | .varintL9 _ => none

/-- The lanes that a response's notation lists: lanes `0..len-1` for `ENCU`, `ENCS`, `LENU` and `TAGLEN`,
and none for the other ops (R61). -/
def listedLanes (op : BitVec 3) (r : Response) : List Byte :=
  if op = 0 ∨ op = 1 ∨ op = 6 ∨ op = 7 then r.bytes.toList.take r.len.toNat else []

end Sys2Proof.Machine
end

