-- ==== Sys2Proof/Machine/Stream.lean ====
section
/-! DEFINITION. The host's use of the block on a byte stream (20_memory.md R45) and the source's
operations as the host expands them (30_encoding.md R62). The sink and the cursor are the host's
(00_scope.md R5) and no part of State: a sink is the bytes written so far, a cursor the bytes that
remain. -/

namespace Sys2Proof.Machine

/-- The bytes an encode response commits to the sink: `bytes[0 .. adv-1]` (R45). -/
def committed (r : Response) : List Byte := r.bytes.toList.take r.adv.toNat

/-- The window of a decode: the next `min(R, 9)` bytes of the cursor, lane 0 first (R45). -/
def windowOf (cursor : List Byte) : Lanes := Lanes.ofList (cursor.take 9)

/-- `avail = min(R, 9)` (R45). -/
def availOf (cursor : List Byte) : BitVec 4 := countCode (min cursor.length 9)

/-- The cursor after a decode response: advanced by `adv` (R45). -/
def advance (r : Response) (cursor : List Byte) : List Byte := cursor.drop r.adv.toNat

/-- `Some(value)` if `status = OK`, else `None` (R62). -/
def readResult (r : Response) : Option Word := if r.status = .ok then some r.value else none

/-- `writeUvarint(sink, v)` (R62). -/
def writeUvarint (sink : List Byte) (v : Word) : List Byte := sink ++ committed (encuResponse v)

/-- `writeVarint(sink, v)` (R62). -/
def writeVarint (sink : List Byte) (v : Word) : List Byte := sink ++ committed (encsResponse v)

/-- `readUvarint(cursor)` (R62), with the cursor after it. -/
def readUvarint (cursor : List Byte) : Option Word × List Byte :=
  let r := decuResponse (windowOf cursor) (availOf cursor)
  (readResult r, advance r cursor)

/-- `readVarint(cursor)` (R62), with the cursor after it. -/
def readVarint (cursor : List Byte) : Option Word × List Byte :=
  let r := decsResponse (windowOf cursor) (availOf cursor)
  (readResult r, advance r cursor)

/-- The sink after writing a list of values in order, one `writeUvarint` each. -/
def writeUvarints (sink : List Byte) : List Word → List Byte
  | [] => sink
  | v :: rest => writeUvarints (writeUvarint sink v) rest

/-- The results of `n` reads in a row, with the cursor after them. -/
def readUvarints : Nat → List Byte → List (Option Word) × List Byte
  | 0, cursor => ([], cursor)
  | n + 1, cursor =>
    let first := readUvarint cursor
    let later := readUvarints n first.2
    (first.1 :: later.1, later.2)

end Sys2Proof.Machine
end

