-- ==== Sys2Proof/Machine/System.lean ====
section
/-! DEFINITION. Several instances side by side (60_exceptions.md R128): each has its own `pend` and its
own ports, they share no mutable state, and there are no instance identifiers and no messages. -/

namespace Sys2Proof.Machine

/-- A system: the states of its instances. -/
abbrev System := List State

/-- The system at power-on, before the first reset of any instance: instance `k` takes its unspecified
contents and levels from stream `k`, so those of two instances are unrelated (R128, R141; log entry 4). -/
def System.powerOn (c : Params) : System := (List.range Config.instances).map (State.powerOn c)

/-- The system right after reset: `INSTANCES` copies of the block (R7). No instance of it is before its
first reset, so none uses a free value. -/
def System.reset : System := List.replicate Config.instances State.reset

/-- A step of instance `k` (log entry 7). Where it stops, its reason is the system's; with no such
instance nothing moves. -/
def System.stepAt (k : Nat) (sys : System) : Host.Outcome System Fault Refusal :=
  match sys[k]? with
  | none => .next sys
  | some s =>
    match step s with
    | .next t => .next (sys.set k t)
    | .fault r => .fault r
    | .refused r => .refused r

end Sys2Proof.Machine
end

