-- ==== Sys2Proof/Safety.lean ====
section
/-! DEFINITION. The terms in which claims about runs are stated: what a run takes in, what keeps the
queue sound, and the duties of the host. -/

namespace Sys2Proof.Machine

/-- What every step keeps true of the queue after a reset. It holds at most `DEPTH` entries (10_state.md
R29). Entries stand in acceptance order, at most one accepted at an edge, so ages fall strictly from the
head (R36). Each entry, and each response handed to the host, is `Respond` of some request (R30, R31). -/
structure State.QueueSound (s : State) : Prop where
  bounded   : s.live = true → s.pend.length ≤ s.params.depth
  ordered   : s.live = true → s.pend.Pairwise fun older newer => newer.age < older.age
  aged      : s.live = true → ∀ e ∈ s.pend, 1 ≤ e.age
  responses : s.live = true → ∀ e ∈ s.pend, ∃ q : Request, e.rsp = respond q
  handed    : ∀ r ∈ s.delivered, ∃ q : Request, r = respond q

/-- The request that the next edge accepts, if it accepts one. -/
def State.acceptedNext (s : State) : List Request :=
  if accepts s.nextInput s then [s.nextInput.request] else []

/-- `k` steps, stopping at the first fault or refusal. -/
def runFor : Nat → State → Host.Outcome State Fault Refusal
  | 0, s => .next s
  | k + 1, s =>
    match step s with
    | .next t => runFor k t
    | .fault r => .fault r
    | .refused r => .refused r

/-- The requests that the next `k` edges accept, in order. -/
def acceptedIn : Nat → State → List Request
  | 0, _ => []
  | k + 1, s =>
    s.acceptedNext ++
      match step s with
      | .next t => acceptedIn k t
      | .fault _ => []
      | .refused _ => []

/-- The responses handed to the host and then those still queued, in order. -/
def State.responseTrace (s : State) : List Response := s.delivered ++ s.pend.map (·.rsp)

/-- None of the next `k` edges is a reset edge. -/
def State.noResetIn (s : State) (k : Nat) : Prop := ∀ p ∈ s.inputs.take k, p.rst = false

/-- The host reads the `rsp_*` fields at none of the edges listed. -/
def State.noReads (s : State) : Prop := ∀ p ∈ s.inputs, p.hostReads = false

/-- Of the edges listed, those at which the host takes a response if there is one. -/
def State.readyEdges (s : State) : Nat := (s.inputs.filter (·.rspReady)).length

/-- The host's handshake duty (70_reset_and_hazards.md R144): a request presented and not accepted is
presented again, unchanged, at the next edge. A claim that needs the duty takes it as a premise; the
block does not check it. That the duty ends at an edge with `rst = 1` is the model's choice: R144 says
"until accepted", and a request presented at a reset edge is not accepted (R140; log entry 9). -/
def State.HoldsRequest (s : State) : Prop :=
  s.nextInput.reqValid = true → accepts s.nextInput s = false → s.nextInput.rst = false →
    s.takeInput.nextInput.reqValid = true ∧ s.takeInput.nextInput.request = s.nextInput.request

/-- The host's window duty (R145): the lanes below the effective avail are the next bytes of its stream,
and `avail` is `min(R, 9)`. -/
def WindowDuty (stream : List Byte) (b : Lanes) (avail : BitVec 4) : Prop :=
  effAvail avail = min stream.length 9 ∧ b.toList.take (effAvail avail) = stream.take (effAvail avail)

end Sys2Proof.Machine
end

