-- ==== Sys2Proof/WellFormed.lean ====
section
/-! DEFINITION. Which terms of `Instr` stand for an instruction. All eight ops, all values of their
operands and all sixteen values of `avail` are defined (30_encoding.md R60), so every command is well
formed. A wire format of `L` bytes carries a payload of at most `MAXV[L]` (R51). -/

namespace Sys2Proof

/-- The payload fits in the length's payload bits (R51, R21). -/
def payloadFits (n : Len) (payload : Word) : Bool := decide (payload ≤ Machine.maxv n)

/-- Well-formedness of an instruction. -/
def Instr.wf : Instr → Bool
  | .encu _ => true
  | .encs _ => true
  | .decu _ _ => true
  | .decs _ _ => true
  | .zze _ => true
  | .zzd _ => true
  | .lenu _ => true
  | .taglen _ => true
  | .varintL1 p => payloadFits .l1 p
  | .varintL2 p => payloadFits .l2 p
  | .varintL3 p => payloadFits .l3 p
  | .varintL4 p => payloadFits .l4 p
  | .varintL5 p => payloadFits .l5 p
  | .varintL6 p => payloadFits .l6 p
  | .varintL7 p => payloadFits .l7 p
  | .varintL8 p => payloadFits .l8 p
  | .varintL9 p => payloadFits .l9 p

end Sys2Proof
end

