-- ==== Sys2Proof/Certificates/Slice0/Obligations.lean ====
section
/-! DEFINITION. The statements for the provers. `s.push r` is the state `s` with one entry for the
response `r` put at the end of `pend`, and every other field as it was; that the new entry has age 1 is
the model's counting of edges (log entry 3). -/

open Sys2Proof Sys2Proof.Machine

/-! ## Encoding -/

/-- Decoding an encoded well-formed instruction gives it back, every operand at every value. The clause
over all instructions is the model's round trip; the formats are R51 and R58. -/
def Obligations.DecodeEncodeRoundTrip : Prop :=
  ∀ i : Instr, i.wf = true → decode (encode i) = .ok i

/-- One encoded integer is read from the front of a byte stream: its length is known from byte 0, and
the bytes after it play no part and are left. -/
def Obligations.WireDecodeTakesOneIntegerOffAStream : Prop :=
  ∀ (n : Len) (payload : Word) (rest : List Byte), payload ≤ maxv n →
    decodeWire (wireBytes n payload ++ rest) = .ok (Instr.ofWire n payload, rest)

/-- Each byte sequence has one reading: what is read from the front of a stream encodes to exactly the
bytes taken off it, and is well formed. -/
def Obligations.WireDecodeIsEncodingOfWhatItReads : Prop :=
  ∀ (bytes : List Byte) (i : Instr) (rest : List Byte), decodeWire bytes = .ok (i, rest) →
    i.wf = true ∧ ∃ w, encode i = .wire w ∧ bytes = w ++ rest

/-- Request words and byte strings written out from the spec decode to what they stand for. -/
def Obligations.ReferenceWordsDecode : Prop :=
  decode (.command 0x000000000000003FF0000000000000000000) = .ok (.encu 0x3FF) ∧
  decode (.command 0x1FFFFFFFFFFFFFFBF0000000000000000000) = .ok (.encs (-65)) ∧
  decode (.command 0x2000000000000000083FF000000000000002) =
    .ok (.decu ⟨0x83, 0xFF, 0, 0, 0, 0, 0, 0, 0⟩ 2) ∧
  decode (.command 0x300000000000000008081000000000000002) =
    .ok (.decs ⟨0x80, 0x81, 0, 0, 0, 0, 0, 0, 0⟩ 2) ∧
  decode (.command 0x4FFFFFFFFFFFFFFFE0000000000000000000) = .ok (.zze (-2)) ∧
  decode (.command 0x5000000000000007F0000000000000000000) = .ok (.zzd 0x7F) ∧
  decode (.command 0x600000000000040000000000000000000000) = .ok (.lenu 0x4000) ∧
  decode (.command 0x70000000000000000C500000000000000000) = .ok (.taglen 0xC5) ∧
  decode (.wire [0x7F]) = .ok (.varintL1 0x7F) ∧
  decode (.wire [0x81, 0x2C]) = .ok (.varintL2 0x12C) ∧
  decode (.wire [0xC0, 0x40, 0x00]) = .ok (.varintL3 0x4000) ∧
  decode (.wire [0xFF, 0x12, 0x34, 0x56, 0x78, 0x9A, 0xBC, 0xDE, 0xF0]) = .ok (.varintL9 0x123456789ABCDEF0)

/-- R58: the fields of the request word and the eight op values. -/
def Obligations.RequestWordFieldsAndOps : Prop :=
  ∀ w : BitVec 143,
    (w.extractLsb' 140 3 = 0 → decode (.command w) = .ok (.encu (w.extractLsb' 76 64))) ∧
    (w.extractLsb' 140 3 = 1 → decode (.command w) = .ok (.encs (w.extractLsb' 76 64))) ∧
    (w.extractLsb' 140 3 = 2 → ∃ b : Lanes, decode (.command w) = .ok (.decu b (w.extractLsb' 0 4)) ∧
      ∀ i : Fin 9, b.lane i = w.extractLsb' (68 - 8 * i.val) 8) ∧
    (w.extractLsb' 140 3 = 3 → ∃ b : Lanes, decode (.command w) = .ok (.decs b (w.extractLsb' 0 4)) ∧
      ∀ i : Fin 9, b.lane i = w.extractLsb' (68 - 8 * i.val) 8) ∧
    (w.extractLsb' 140 3 = 4 → decode (.command w) = .ok (.zze (w.extractLsb' 76 64))) ∧
    (w.extractLsb' 140 3 = 5 → decode (.command w) = .ok (.zzd (w.extractLsb' 76 64))) ∧
    (w.extractLsb' 140 3 = 6 → decode (.command w) = .ok (.lenu (w.extractLsb' 76 64))) ∧
    (w.extractLsb' 140 3 = 7 → decode (.command w) = .ok (.taglen (w.extractLsb' 68 8)))

/-- R55: each byte matches exactly one row of R51, the one its leading ones declare, and every sequence
of `L` bytes whose byte 0 declares `L` decodes to a value. -/
def Obligations.EveryByteZeroSelectsOneFormat : Prop :=
  (∀ t : Byte, ∃ r ∈ wireRows, r.accepts t = true ∧ r.len.toNat = clo8 t + 1 ∧
    ∀ r' ∈ wireRows, r'.accepts t = true → r' = r) ∧
  ∀ (b0 : Byte) (cont : List Byte), cont.length + 1 = clo8 b0 + 1 →
    ∃ (n : Len) (payload : Word), n.toNat = clo8 b0 + 1 ∧
      decode (.wire (b0 :: cont)) = .ok (Instr.ofWire n payload)

/-- R42: lane `i` of a window is bits `[71-8i : 64-8i]` of its bus, and the bus is `BE(lanes[0..8])`; of
the window that `req_b` brings in and of the one that `rsp_bytes` shows. -/
def Obligations.LanePackingOnTheBus : Prop :=
  (∀ b : Lanes, (∀ i : Fin 9, b.toBus.extractLsb' (64 - 8 * i.val) 8 = b.lane i) ∧
    b.toBus.toNat = beNat b.toList) ∧
  (∀ p : PortIn, p.request.b.toBus = p.reqB) ∧
  ∀ r : Response, (Response.pins r).bytes = r.bytes.toBus

/-- R61: the notation loses nothing. A command written as a line assembles to a request that decodes to
it, and the lanes a response lists, with `0x00` for the others, are all of its bytes. -/
def Obligations.NotationLosesNothing : Prop :=
  (∀ (i : Instr) (line : AsmLine), lineOf i = some line →
    ∃ q : Request, assemble line = some q ∧ decodeRequest q = i) ∧
  ∀ q : Request, Lanes.ofList (listedLanes q.op (respond q)) = (respond q).bytes

/-! ## Tables -/

/-- R21 to R24: the formulas of the length tables. -/
def Obligations.LengthTablesHoldTheirFormulas : Prop :=
  ∀ n : Len,
    (maxv n).toNat = (if n = .l9 then 2 ^ 64 - 1 else 2 ^ (7 * n.toNat) - 1) ∧
    (tagb n).toNat = (0xFF * 2 ^ (9 - n.toNat)) % 256 ∧
    (tagp n).toNat = (tagb n).toNat * 2 ^ (8 * (n.toNat - 1)) ∧
    (n ≠ .l9 → (tagp n).toNat < 2 ^ 64 ∧ tagp n &&& (maxv n).setWidth 72 = 0) ∧
    (pmask0 n).toNat = (if n = .l9 then 0 else 0x7F / 2 ^ (n.toNat - 1)) ∧
    (n ≠ .l9 → (maxv n).toNat =
      (pmask0 n).toNat * 2 ^ (8 * (n.toNat - 1)) ||| (2 ^ (8 * (n.toNat - 1)) - 1))

/-- R25 and R90: `TagLen(t) = LEN_OF_TAG[t] = clo8(t) + 1`, total with values in 1..9, where `clo8(t)`
counts the one-bits from bit 7 down to the first zero. -/
def Obligations.TagLengthIsLeadingOnesPlusOne : Prop :=
  ∀ t : Byte,
    (tagLen t).toNat = clo8 t + 1 ∧ 1 ≤ (tagLen t).toNat ∧ (tagLen t).toNat ≤ 9 ∧
    (∀ j, j < clo8 t → t.getLsbD (7 - j) = true) ∧ (clo8 t < 8 → t.getLsbD (7 - clo8 t) = false) ∧
    (tagLen t = .l1 ↔ t.toNat ≤ 0x7F) ∧ (tagLen t = .l2 ↔ 0x80 ≤ t.toNat ∧ t.toNat ≤ 0xBF) ∧
    (tagLen t = .l3 ↔ 0xC0 ≤ t.toNat ∧ t.toNat ≤ 0xDF) ∧ (tagLen t = .l4 ↔ 0xE0 ≤ t.toNat ∧ t.toNat ≤ 0xEF) ∧
    (tagLen t = .l5 ↔ 0xF0 ≤ t.toNat ∧ t.toNat ≤ 0xF7) ∧ (tagLen t = .l6 ↔ 0xF8 ≤ t.toNat ∧ t.toNat ≤ 0xFB) ∧
    (tagLen t = .l7 ↔ 0xFC ≤ t.toNat ∧ t.toNat ≤ 0xFD) ∧ (tagLen t = .l8 ↔ t = 0xFE) ∧
    (tagLen t = .l9 ↔ t = 0xFF)

/-! ## Encoder -/

/-- R70: `LenOf(u)` is the smallest `n` with `u ≤ MAXV[n]`; it is `min(9, max(1, ceil(bitlen(u) / 7)))`;
and its boundaries. -/
def Obligations.LenOfIsTheSmallestLengthThatFits : Prop :=
  (∀ u : Word, u ≤ maxv (lenOf u) ∧ (∀ n : Len, u ≤ maxv n → (lenOf u).toNat ≤ n.toNat) ∧
    (lenOf u).toNat = min 9 (max 1 ((u.toNat.size + 6) / 7))) ∧
  lenOf 0x7F = .l1 ∧ lenOf 0x80 = .l2 ∧ lenOf 0x3FFF = .l2 ∧ lenOf 0x4000 = .l3 ∧
  lenOf 0xFFFFFFFFFFFFFF = .l8 ∧ lenOf 0x100000000000000 = .l9

/-- R71: the lanes of `Pack(u)`. -/
def Obligations.PackLaysOutTagAndValueBigEndian : Prop :=
  ∀ u : Word,
    (lenOf u = .l9 → (pack u).b0 = 0xFF ∧
      ∀ i : Fin 9, 1 ≤ i.val → (pack u).lane i = u.extractLsb' (8 * (8 - i.val)) 8) ∧
    (lenOf u ≠ .l9 → tagp (lenOf u) &&& u.setWidth 72 = 0 ∧ ∀ i : Fin 9, i.val < (lenOf u).toNat →
      (pack u).lane i =
        (tagp (lenOf u) ||| u.setWidth 72).extractLsb' (8 * ((lenOf u).toNat - 1 - i.val)) 8) ∧
    (lenOf u = .l1 → (pack u).b0 = u.setWidth 8) ∧
    (∀ i : Fin 9, (lenOf u).toNat ≤ i.val → (pack u).lane i = 0) ∧
    (∃ r ∈ wireRows, r.len = lenOf u ∧ r.accepts (pack u).b0 = true) ∧
    (pack u).b0 &&& ~~~(pmask0 (lenOf u)) = tagb (lenOf u)

/-- R75: the encoder laws (a) to (f). -/
def Obligations.EncoderLaws : Prop :=
  (∀ u : Word,
    (1 ≤ (lenOf u).toNat ∧ (lenOf u).toNat ≤ 9) ∧
    (u ≤ maxv (lenOf u) ∧ ∀ m : Len, m.toNat + 1 = (lenOf u).toNat → maxv m < u) ∧
    tagLen (pack u).b0 = lenOf u ∧
    wirePayload (lenOf u) (pack u).b0 (((pack u).toList.take (lenOf u).toNat).drop 1) = u ∧
    (∀ i : Fin 9, (lenOf u).toNat ≤ i.val → (pack u).lane i = 0)) ∧
  ∀ u v : Word,
    (pack u).toList.take (lenOf u).toNat = (pack v).toList.take (lenOf v).toNat → u = v

/-- R72: `ENCU` answers the value, its minimal length twice, and its bytes; op 0; corner cases. -/
def Obligations.EncuAnswersTheMinimalEncoding : Prop :=
  (∀ (a : Word) (s : State), s.pend.length < s.params.depth →
    exec (.encu a) s = .next (s.push ⟨.ok, a, (lenOf a).code, (lenOf a).code, pack a⟩)) ∧
  (∀ (a : Word) (b : Lanes) (avail : BitVec 4), decodeRequest ⟨0, a, b, avail⟩ = .encu a) ∧
  (pack 0 = Lanes.zero ∧ lenOf 0 = .l1) ∧
  (∀ n : Len, lenOf (maxv n) = n ∧ (n ≠ .l9 → (lenOf (maxv n + 1)).toNat = n.toNat + 1)) ∧
  pack 0xFFFFFFFFFFFFFFFF = ⟨0xFF, 0xFF, 0xFF, 0xFF, 0xFF, 0xFF, 0xFF, 0xFF, 0xFF⟩ ∧
  (∀ a : Word, 2 ^ 56 ≤ a.toNat → lenOf a = .l9 ∧ (pack a).b0 = 0xFF) ∧
  encuResponse 0x3FF = ⟨.ok, 0x3FF, 2, 2, ⟨0x83, 0xFF, 0, 0, 0, 0, 0, 0, 0⟩⟩

/-- R73: `ENCS` encodes the zigzag pattern of its operand and reports that pattern; op 1; corner cases. -/
def Obligations.EncsEncodesTheZigzagPattern : Prop :=
  (∀ (a : Word) (s : State), s.pend.length < s.params.depth →
    exec (.encs a) s = .next (s.push ⟨.ok, zigzagEncode a, (lenOf (zigzagEncode a)).code,
      (lenOf (zigzagEncode a)).code, pack (zigzagEncode a)⟩)) ∧
  (∀ (a : Word) (b : Lanes) (avail : BitVec 4), decodeRequest ⟨1, a, b, avail⟩ = .encs a) ∧
  encsResponse 0 = ⟨.ok, 0, 1, 1, Lanes.ofList [0x00]⟩ ∧
  encsResponse (-1) = ⟨.ok, 1, 1, 1, Lanes.ofList [0x01]⟩ ∧
  encsResponse 1 = ⟨.ok, 2, 1, 1, Lanes.ofList [0x02]⟩ ∧
  encsResponse (-64) = ⟨.ok, 0x7F, 1, 1, Lanes.ofList [0x7F]⟩ ∧
  encsResponse 64 = ⟨.ok, 0x80, 2, 2, Lanes.ofList [0x80, 0x80]⟩ ∧
  encsResponse (-65) = ⟨.ok, 0x81, 2, 2, Lanes.ofList [0x80, 0x81]⟩ ∧
  encsResponse 0x8000000000000000 = ⟨.ok, 0xFFFFFFFFFFFFFFFF, 9, 9,
    ⟨0xFF, 0xFF, 0xFF, 0xFF, 0xFF, 0xFF, 0xFF, 0xFF, 0xFF⟩⟩ ∧
  encsResponse 0x7FFFFFFFFFFFFFFF = ⟨.ok, 0xFFFFFFFFFFFFFFFE, 9, 9,
    ⟨0xFF, 0xFF, 0xFF, 0xFF, 0xFF, 0xFF, 0xFF, 0xFF, 0xFE⟩⟩

/-- R74: `LENU` answers the minimal length of its operand and that length's table entries, and commits
nothing; op 6; corner cases. -/
def Obligations.LenuAnswersTheLengthsTableEntries : Prop :=
  (∀ (a : Word) (s : State), s.pend.length < s.params.depth →
    exec (.lenu a) s = .next (s.push ⟨.ok, maxv (lenOf a), (lenOf a).code, 0,
      ⟨tagb (lenOf a), 0, 0, 0, 0, 0, 0, 0, 0⟩⟩)) ∧
  (∀ (a : Word) (b : Lanes) (avail : BitVec 4), decodeRequest ⟨6, a, b, avail⟩ = .lenu a) ∧
  lenuResponse 0 = ⟨.ok, 0x7F, 1, 0, Lanes.zero⟩ ∧
  lenuResponse 0x4000 = ⟨.ok, 0x1FFFFF, 3, 0, Lanes.ofList [0xC0]⟩ ∧
  lenuResponse 0xFFFFFFFFFFFFFFFF = ⟨.ok, 0xFFFFFFFFFFFFFFFF, 9, 0, Lanes.ofList [0xFF]⟩ ∧
  ∀ a : Word, 2 ^ 56 ≤ a.toNat → (lenuResponse a).len = 9

/-! ## Decoder -/

/-- R52: the bits of the value an `L`-byte encoding carries, and that the decoder's masked reading of
the lanes (R92) is that value. -/
def Obligations.UnpackReadsThePayloadBits : Prop :=
  ∀ (b : Lanes) (n : Len), tagLen b.b0 = n →
    unpack b n = wirePayload n b.b0 ((b.toList.take n.toNat).drop 1) ∧
    (∀ i : Fin 9, 1 ≤ i.val → i.val < n.toNat →
      (unpack b n).extractLsb' (8 * (n.toNat - 1 - i.val)) 8 = b.lane i) ∧
    (n ≠ .l9 → (unpack b n).toNat / 2 ^ (8 * (n.toNat - 1)) = (b.b0 &&& pmask0 n).toNat) ∧
    unpack b n ≤ maxv n

/-- R91: 9 to 15 all mean nine valid lanes, and a window of nine lanes is never truncated or empty. -/
def Obligations.AvailCountsAtMostNineLanes : Prop :=
  (∀ avail : BitVec 4, effAvail avail = min avail.toNat 9) ∧
  ∀ (b : Lanes) (avail : BitVec 4), 9 ≤ avail.toNat →
    decuResponse b avail = decuResponse b 9 ∧ decsResponse b avail = decsResponse b 9 ∧
    (decuResponse b avail).status = .ok ∧ (decsResponse b avail).status = .ok

/-- R93: a decode depends on the effective avail; on lane 0 only if that is at least 1; and on lanes
`1..L-1` only if it is at least `L`. Lanes that no case lists have no effect on any field. -/
def Obligations.DecodeReadsOnlyTheListedLanes : Prop :=
  ∀ (b b' : Lanes) (avail avail' : BitVec 4), effAvail avail = effAvail avail' →
    (1 ≤ effAvail avail → b.b0 = b'.b0) →
    ((tagLen b.b0).toNat ≤ effAvail avail →
      ∀ i : Fin 9, i.val < (tagLen b.b0).toNat → b.lane i = b'.lane i) →
    decuResponse b avail = decuResponse b' avail' ∧ decsResponse b avail = decsResponse b' avail'

/-- R94: `DECU`, its three outcomes with every field of the response; op 2; corner cases. -/
def Obligations.DecuReportsEmptyTruncOrTheValue : Prop :=
  (∀ (b : Lanes) (avail : BitVec 4) (s : State), s.pend.length < s.params.depth →
    (effAvail avail = 0 → exec (.decu b avail) s = .next (s.push ⟨.empty, 0, 0, 0, Lanes.zero⟩)) ∧
    (1 ≤ effAvail avail → effAvail avail < (tagLen b.b0).toNat →
      exec (.decu b avail) s = .next (s.push
        ⟨.trunc, 0, (tagLen b.b0).code, BitVec.ofNat 4 (effAvail avail), Lanes.zero⟩)) ∧
    ((tagLen b.b0).toNat ≤ effAvail avail →
      exec (.decu b avail) s = .next (s.push
        ⟨.ok, unpack b (tagLen b.b0), (tagLen b.b0).code, (tagLen b.b0).code, Lanes.zero⟩))) ∧
  (∀ (a : Word) (b : Lanes) (avail : BitVec 4), decodeRequest ⟨2, a, b, avail⟩ = .decu b avail) ∧
  (∀ (b : Lanes) (avail : BitVec 4), b.b0 = 0xFF → 1 ≤ avail.toNat → avail.toNat ≤ 8 →
    (decuResponse b avail).status = .trunc ∧ (decuResponse b avail).len = 9) ∧
  decuResponse ⟨0xFF, 0xFF, 0xFF, 0xFF, 0xFF, 0xFF, 0xFF, 0xFF, 0xFF⟩ 9 =
    ⟨.ok, 0xFFFFFFFFFFFFFFFF, 9, 9, Lanes.zero⟩ ∧
  decuResponse ⟨0xDF, 0xFF, 0xFF, 0, 0, 0, 0, 0, 0⟩ 3 = ⟨.ok, 0x1FFFFF, 3, 3, Lanes.zero⟩

/-- R95: `DECS` is `DECU` with the value zigzag-decoded on `OK` and 0 otherwise; op 3; corner cases. -/
def Obligations.DecsReportsTheZigzagDecodedValue : Prop :=
  (∀ (b : Lanes) (avail : BitVec 4) (s : State), s.pend.length < s.params.depth →
    (effAvail avail = 0 → exec (.decs b avail) s = .next (s.push ⟨.empty, 0, 0, 0, Lanes.zero⟩)) ∧
    (1 ≤ effAvail avail → effAvail avail < (tagLen b.b0).toNat →
      exec (.decs b avail) s = .next (s.push
        ⟨.trunc, 0, (tagLen b.b0).code, BitVec.ofNat 4 (effAvail avail), Lanes.zero⟩)) ∧
    ((tagLen b.b0).toNat ≤ effAvail avail →
      exec (.decs b avail) s = .next (s.push ⟨.ok, zigzagDecode (unpack b (tagLen b.b0)),
        (tagLen b.b0).code, (tagLen b.b0).code, Lanes.zero⟩))) ∧
  (∀ (a : Word) (b : Lanes) (avail : BitVec 4), decodeRequest ⟨3, a, b, avail⟩ = .decs b avail) ∧
  decsResponse ⟨0x01, 0, 0, 0, 0, 0, 0, 0, 0⟩ 1 = ⟨.ok, 0xFFFFFFFFFFFFFFFF, 1, 1, Lanes.zero⟩ ∧
  decsResponse ⟨0xFF, 0xFF, 0xFF, 0xFF, 0xFF, 0xFF, 0xFF, 0xFF, 0xFF⟩ 9 =
    ⟨.ok, 0x8000000000000000, 9, 9, Lanes.zero⟩ ∧
  decsResponse ⟨0xFF, 0xFF, 0xFF, 0xFF, 0xFF, 0xFF, 0xFF, 0xFF, 0xFE⟩ 9 =
    ⟨.ok, 0x7FFFFFFFFFFFFFFF, 9, 9, Lanes.zero⟩ ∧
  decsResponse ⟨0x80, 0x81, 0, 0, 0, 0, 0, 0, 0⟩ 2 = ⟨.ok, 0xFFFFFFFFFFFFFFBF, 2, 2, Lanes.zero⟩

/-- R96: `TAGLEN` answers the length its tag byte declares and that length's table entries; op 7;
corner cases. -/
def Obligations.TaglenAnswersTheDeclaredLength : Prop :=
  (∀ (t : Byte) (s : State), s.pend.length < s.params.depth →
    exec (.taglen t) s = .next (s.push ⟨.ok, maxv (tagLen t), (tagLen t).code, 0,
      ⟨tagb (tagLen t), 0, 0, 0, 0, 0, 0, 0, 0⟩⟩)) ∧
  (∀ (a : Word) (b : Lanes) (avail : BitVec 4), decodeRequest ⟨7, a, b, avail⟩ = .taglen b.b0) ∧
  (∀ t : Byte, t.toNat ≤ 0x7F → (taglenResponse t).len = 1) ∧
  (taglenResponse 0xFE).len = 8 ∧
  ((taglenResponse 0xFF).len = 9 ∧ (taglenResponse 0xFF).value = 0xFFFFFFFFFFFFFFFF) ∧
  taglenResponse 0xC5 = ⟨.ok, 0x1FFFFF, 3, 0, ⟨0xC0, 0, 0, 0, 0, 0, 0, 0, 0⟩⟩

/-- R97: a sequence whose declared length is longer than its value needs decodes to the value it
carries, with the declared length. -/
def Obligations.NonCanonicalInputDecodesToItsValue : Prop :=
  (∀ (b : Lanes) (avail : BitVec 4) (s : State), s.pend.length < s.params.depth →
    (tagLen b.b0).toNat ≤ effAvail avail →
    (lenOf (unpack b (tagLen b.b0))).toNat < (tagLen b.b0).toNat →
    exec (.decu b avail) s = .next (s.push
      ⟨.ok, unpack b (tagLen b.b0), (tagLen b.b0).code, (tagLen b.b0).code, Lanes.zero⟩)) ∧
  decuResponse ⟨0x80, 0x05, 0, 0, 0, 0, 0, 0, 0⟩ 2 = ⟨.ok, 5, 2, 2, Lanes.zero⟩

/-- R98: decoding what was encoded gives the value back, with any values in the lanes after it and any
`avail` that reaches its length; unsigned, and signed through the zigzag pair. -/
def Obligations.EncodeThenDecodeRoundTrip : Prop :=
  (∀ (u : Word) (b : Lanes) (avail : BitVec 4) (s : State), s.pend.length < s.params.depth →
    (lenOf u).toNat ≤ min avail.toNat 9 →
    (∀ i : Fin 9, i.val < (lenOf u).toNat → b.lane i = (encuResponse u).bytes.lane i) →
    exec (.decu b avail) s = .next (s.push ⟨.ok, u, (lenOf u).code, (lenOf u).code, Lanes.zero⟩)) ∧
  ∀ (v : Word) (b : Lanes) (avail : BitVec 4) (s : State), s.pend.length < s.params.depth →
    (encsResponse v).len.toNat ≤ min avail.toNat 9 →
    (∀ i : Fin 9, i.val < (encsResponse v).len.toNat → b.lane i = (encsResponse v).bytes.lane i) →
    exec (.decs b avail) s =
      .next (s.push ⟨.ok, v, (encsResponse v).len, (encsResponse v).len, Lanes.zero⟩)

/-- R99: an encoding without its last byte gives no value: `EMPTY` for one byte, `TRUNC` for more. -/
def Obligations.TruncatedEncodingGivesNoValue : Prop :=
  ∀ (u : Word) (s : State), s.pend.length < s.params.depth →
    (lenOf u = .l1 → exec (.decu (pack u) 0) s = .next (s.push ⟨.empty, 0, 0, 0, Lanes.zero⟩)) ∧
    (lenOf u ≠ .l1 → exec (.decu (pack u) ((lenOf u).code - 1)) s =
      .next (s.push ⟨.trunc, 0, (lenOf u).code, (lenOf u).code - 1, Lanes.zero⟩))

/-- R100: values encoded in order into one stream and decoded under the contract of R45 come back in
order, the cursor ends at the end of the stream, and the next decode is `EMPTY`. -/
def Obligations.StreamOfValuesReadsBackInOrder : Prop :=
  ∀ vs : List Word,
    readUvarints vs.length (writeUvarints [] vs) = (vs.map some, []) ∧
    (decuResponse (windowOf []) (availOf [])).status = .empty

/-- R45: what a read does to the cursor. `EMPTY` means that no byte remained; `TRUNC` leaves the cursor
exhausted; `OK` takes exactly one encoded integer off the stream and returns its payload. -/
def Obligations.ReadLeavesTheCursorWhereTheSourceSays : Prop :=
  ∀ cursor : List Byte,
    ((decuResponse (windowOf cursor) (availOf cursor)).status = .empty ↔ cursor = []) ∧
    ((readUvarint cursor).1 = none → (readUvarint cursor).2 = []) ∧
    ∀ u rest, readUvarint cursor = (some u, rest) →
      ∃ n : Len, u ≤ maxv n ∧ decodeWire cursor = .ok (Instr.ofWire n u, rest)

/-- R145 with R93: a host that keeps its window duty gets the response that its stream determines,
whatever stands in the lanes above the effective avail. -/
def Obligations.WindowDutyMakesTheResponseDescribeTheStream : Prop :=
  ∀ (stream : List Byte) (b : Lanes) (avail : BitVec 4), WindowDuty stream b avail →
    decuResponse b avail = decuResponse (windowOf stream) (availOf stream) ∧
    decsResponse b avail = decsResponse (windowOf stream) (availOf stream)

/-- The signed round trip through a stream, `readVarint(writeVarint(v)) == Some(v)`, with any bytes
after it left in the cursor. -/
def Obligations.SignedValueReadsBackFromAStream : Prop :=
  ∀ (v : Word) (rest : List Byte), readVarint (writeVarint [] v ++ rest) = (some v, rest)

/-! ## Zigzag -/

/-- R110 and R111: the formulas of the zigzag pair, their closed forms over the integers, and the bits of
the pattern. -/
def Obligations.ZigzagClosedForms : Prop :=
  (∀ v : Word,
    zigzagEncode v = (v.sshiftRight 63) ^^^ (v <<< 1) ∧
    ((zigzagEncode v).toNat : Int) = (if 0 ≤ v.toInt then 2 * v.toInt else -2 * v.toInt - 1) ∧
    (zigzagEncode v).getLsbD 0 = v.msb ∧
    ∀ j, j < 63 → (zigzagEncode v).getLsbD (j + 1) = if v.msb then !(v.getLsbD j) else v.getLsbD j) ∧
  ∀ u : Word, zigzagDecode u = (u >>> 1) ^^^ (0 - (u &&& 1)) ∧
    (zigzagDecode u).toInt =
      if u.toNat % 2 = 0 then (u.toNat : Int) / 2 else -(((u.toNat : Int) + 1) / 2)

/-- R114: the zigzag pair are inverse bijections; the order of small values; and the signed values that
`ENCS` encodes in at most `n` bytes. -/
def Obligations.ZigzagIsABijection : Prop :=
  (∀ x : Word, zigzagDecode (zigzagEncode x) = x ∧ zigzagEncode (zigzagDecode x) = x) ∧
  [0, -1, 1, -2, 2].map zigzagEncode = [0, 1, 2, 3, 4] ∧
  ∀ (v : Word) (n : Len), n ≠ .l9 →
    ((encsResponse v).len.toNat ≤ n.toNat ↔
      -(2 ^ (7 * n.toNat - 1) : Int) ≤ v.toInt ∧ v.toInt ≤ 2 ^ (7 * n.toNat - 1) - 1)

/-- R112: `ZZE`, every field; op 4; corner cases. -/
def Obligations.ZzeAnswersTheZigzagPattern : Prop :=
  (∀ (a : Word) (s : State), s.pend.length < s.params.depth →
    exec (.zze a) s = .next (s.push ⟨.ok, (a.sshiftRight 63) ^^^ (a <<< 1), 0, 0, Lanes.zero⟩)) ∧
  (∀ (a : Word) (b : Lanes) (avail : BitVec 4), decodeRequest ⟨4, a, b, avail⟩ = .zze a) ∧
  zigzagEncode 0 = 0 ∧ zigzagEncode 0x8000000000000000 = 0xFFFFFFFFFFFFFFFF ∧
  zigzagEncode 0x7FFFFFFFFFFFFFFF = 0xFFFFFFFFFFFFFFFE ∧ zigzagEncode (-1) = 1 ∧ zigzagEncode (-2) = 3

/-- R113: `ZZD`, every field; op 5; corner cases. -/
def Obligations.ZzdAnswersTheSignedValue : Prop :=
  (∀ (a : Word) (s : State), s.pend.length < s.params.depth →
    exec (.zzd a) s = .next (s.push ⟨.ok, (a >>> 1) ^^^ (0 - (a &&& 1)), 0, 0, Lanes.zero⟩)) ∧
  (∀ (a : Word) (b : Lanes) (avail : BitVec 4), decodeRequest ⟨5, a, b, avail⟩ = .zzd a) ∧
  zigzagDecode 0 = 0 ∧ zigzagDecode 1 = 0xFFFFFFFFFFFFFFFF ∧
  zigzagDecode 0xFFFFFFFFFFFFFFFF = 0x8000000000000000 ∧
  zigzagDecode 0xFFFFFFFFFFFFFFFE = 0x7FFFFFFFFFFFFFFF ∧
  zigzagDecode 0x8000000000000000 = 0x4000000000000000 ∧ zigzagDecode 0x7F = 0xFFFFFFFFFFFFFFC0

/-! ## Wire formats as instructions -/

/-- A wire format, taken by the decoder, completes with the value of its payload and its own length.
That an encoded integer runs as a decode of exactly its bytes is the model's choice (log entry 5); the
value, `len` and `adv` are R52 and R94. -/
def Obligations.WireFormatsAnswerTheirPayload : Prop :=
  ∀ (p : Word) (s : State), s.pend.length < s.params.depth →
    (p ≤ 0x7F → exec (.varintL1 p) s = .next (s.push ⟨.ok, p, 1, 1, Lanes.zero⟩)) ∧
    (p ≤ 0x3FFF → exec (.varintL2 p) s = .next (s.push ⟨.ok, p, 2, 2, Lanes.zero⟩)) ∧
    (p ≤ 0x1FFFFF → exec (.varintL3 p) s = .next (s.push ⟨.ok, p, 3, 3, Lanes.zero⟩)) ∧
    (p ≤ 0xFFFFFFF → exec (.varintL4 p) s = .next (s.push ⟨.ok, p, 4, 4, Lanes.zero⟩)) ∧
    (p ≤ 0x7FFFFFFFF → exec (.varintL5 p) s = .next (s.push ⟨.ok, p, 5, 5, Lanes.zero⟩)) ∧
    (p ≤ 0x3FFFFFFFFFF → exec (.varintL6 p) s = .next (s.push ⟨.ok, p, 6, 6, Lanes.zero⟩)) ∧
    (p ≤ 0x1FFFFFFFFFFFF → exec (.varintL7 p) s = .next (s.push ⟨.ok, p, 7, 7, Lanes.zero⟩)) ∧
    (p ≤ 0xFFFFFFFFFFFFFF → exec (.varintL8 p) s = .next (s.push ⟨.ok, p, 8, 8, Lanes.zero⟩)) ∧
    exec (.varintL9 p) s = .next (s.push ⟨.ok, p, 9, 9, Lanes.zero⟩)

/-! ## The machine -/

/-- The frame of every instruction, with its completion: there is one response for it, the same in every
state, and with room its execution appends that response to `pend` and changes no other field; with no
room the request waits and no field changes at all (R30, R36). -/
def Obligations.EveryInstructionOnlyAppendsItsResponse : Prop :=
  ∀ i : Instr, ∃ r : Response, ∀ s : State,
    (s.pend.length < s.params.depth → exec i s = .next
      { params := s.params, live := s.live, pend := s.pend ++ [⟨r, 1⟩], inputs := s.inputs,
        delivered := s.delivered, fresh := s.fresh }) ∧
    (s.params.depth ≤ s.pend.length → exec i s = .next s)

/-- `Respond(req)` is what decoding a request and running its instruction appends, and a field that the
op does not read has no effect on it (R30, R59). -/
def Obligations.ResponseDependsOnTheFieldsTheOpReads : Prop :=
  (∀ (q : Request) (s : State), s.pend.length < s.params.depth →
    exec (decodeRequest q) s = .next (s.push (respond q))) ∧
  ∀ q q' : Request, q.op = q'.op →
    (q.op ≠ 2 → q.op ≠ 3 → q.op ≠ 7 → q.a = q'.a) →
    (q.op = 2 ∨ q.op = 3 → q.b = q'.b ∧ q.avail = q'.avail) →
    (q.op = 7 → q.b.b0 = q'.b.b0) → respond q = respond q'

/-- Only a decode reports a status other than `OK`; no response carries status code 3, and a host that
reads that code is refused by name (R33, R120). -/
def Obligations.OnlyDecodesReportAStatusOtherThanOk : Prop :=
  (∀ q : Request, (respond q).status ≠ .ok → q.op = 2 ∨ q.op = 3) ∧
  (∀ q : Request, (respond q).status.code ≠ 3 ∧
    readStatus (respond q).status.code = .ok (respond q).status) ∧
  readStatus 3 = .error .reservedStatusCode ∧
  Status.ok.code = 0 ∧ Status.empty.code = 1 ∧ Status.trunc.code = 2

/-- A step with a request on the port that the block can take runs the instruction that the request
decodes to, after the delivery phase of the same edge (R36). The request's own word decodes to it. -/
def Obligations.StepRunsThePresentedRequest : Prop :=
  ∀ s : State, s.live = true → s.nextInput.rst = false → s.nextInput.hostReads = false →
    s.nextInput.reqValid = true → s.pend.length < s.params.depth →
    decode (.command (wordOfRequest s.nextInput.request)) = .ok (decodeRequest s.nextInput.request) ∧
    step s = exec (decodeRequest s.nextInput.request) (deliverPhase s.nextInput s.takeInput)

/-- A step with an unsigned decode on the port whose valid lanes begin with an encoded integer runs that
integer's wire format (R62, R45; log entry 5). -/
def Obligations.StepRunsThePresentedEncodedInteger : Prop :=
  ∀ (s : State) (i : Instr) (rest : List Byte),
    s.live = true → s.nextInput.rst = false → s.nextInput.hostReads = false →
    s.nextInput.reqValid = true → s.nextInput.reqOp = 2 → s.pend.length < s.params.depth →
    decodeWire (s.nextInput.request.b.toList.take (effAvail s.nextInput.reqAvail)) = .ok (i, rest) →
    step s = exec i (deliverPhase s.nextInput s.takeInput)

/-- The host's way in: an opcode-table word placed with `withFetchWord` is run by the very next step of
a machine that was reset and has room (log entry 1). -/
def Obligations.PlacedTableWordRunsNext : Prop :=
  ∀ (s : State) (nbits w : Nat) (i : Instr), s.live = true → s.pend.length < s.params.depth →
    decodeTableWord nbits w = some i → step (s.withFetchWord nbits w) = exec i (passEdge s)

/-- R36 with R30, R31 and R35: an edge with `rst = 0` hands the head to the host if it is ready and the
host takes it, lets the edge pass for the entries that stay, and appends the response of the request
after them if one is presented and `|pend| < DEPTH` before the edge; a full queue takes no request even
when its head leaves at that edge. -/
def Obligations.EdgeDeliversThenAccepts : Prop :=
  ∀ s : State, s.live = true → s.nextInput.rst = false → s.nextInput.hostReads = false →
    ∃ t : State, step s = .next t ∧ t.live = true ∧ t.params = s.params ∧ t.inputs = s.inputs.tail ∧
      t.fresh = s.fresh ∧
      ∃ (kept : List Pending) (taken : List Pending), s.pend = taken ++ kept ∧
        t.delivered = s.delivered ++ taken.map (·.rsp) ∧
        ((∃ e, taken = [e] ∧ s.params.latency ≤ e.age ∧ s.nextInput.rspReady = true) ∨
          (taken = [] ∧ (s.nextInput.rspReady = false ∨ ∀ e ∈ s.pend.head?, e.age < s.params.latency))) ∧
        t.pend = kept.map (fun e => { e with age := e.age + 1 }) ++
          (if s.nextInput.reqValid = true ∧ s.pend.length < s.params.depth
            then [⟨respond s.nextInput.request, 1⟩] else [])

/-- R140: a reset edge discards every response not yet delivered and accepts and delivers nothing,
whatever the state and the other inputs; while `rst = 1` both levels are 0 and the data fields hold no
value, and a host that reads them has the fault of R140. -/
def Obligations.ResetEdgeEmptiesTheQueue : Prop :=
  (∀ s : State, s.nextInput.rst = true → s.nextInput.hostReads = false →
    step s = .next { s.takeInput with live := true, pend := [] }) ∧
  (∀ s : State, s.outputs true = ⟨false, false, none⟩) ∧
  ∀ s : State, s.live = true → s.nextInput.hostReads = true →
    s.rspValid s.nextInput.rst = false → step s = .fault .rspReadWhileInvalid

/-- R142: after reset `pend` is empty and `req_ready = 1`, and a request presented at the first edge
with `rst = 0` is accepted at that edge. -/
def Obligations.FirstRequestAfterResetIsAccepted : Prop :=
  ∀ s : State, s.live = true → s.pend = [] →
    s.reqReady false = true ∧
    (s.nextInput.rst = false → s.nextInput.hostReads = false → s.nextInput.reqValid = true →
      step s = .next { s.takeInput with pend := [⟨respond s.nextInput.request, 1⟩] })

/-- R34 and R142: what `State.reset` holds and shows, for every choice of the open parameters. -/
def Obligations.ResetStateIsEmptyAndReady : Prop :=
  (∀ c : Params, (State.resetWith c).params = c ∧ (State.resetWith c).pend = [] ∧
    (State.resetWith c).live = true ∧ (State.resetWith c).outputs false = ⟨true, false, none⟩) ∧
  State.reset = State.resetWith Config.params

/-- R141: before the first reset an edge without `rst` hands the host nothing and does not end that
time, a host that reads a data field has a fault, and one reset edge is all that boot needs. -/
def Obligations.NothingIsDeliveredBeforeTheFirstReset : Prop :=
  ∀ s : State, s.live = false →
    (s.nextInput.rst = false → s.nextInput.hostReads = false →
      ∃ t, step s = .next t ∧ t.live = false ∧ t.delivered = s.delivered ∧ t.params = s.params) ∧
    (s.nextInput.hostReads = true → step s = .fault .readBeforeReset) ∧
    (s.nextInput.rst = true → s.nextInput.hostReads = false →
      ∃ t, step s = .next t ∧ t.live = true ∧ t.pend = [] ∧ t.reqReady false = true)

/-- R35: the levels and the data fields on the port, after a reset and with `rst = 0`. -/
def Obligations.PortShowsTheQueue : Prop :=
  ∀ s : State, s.live = true →
    (s.reqReady false = true ↔ s.pend.length < s.params.depth) ∧
    (s.rspValid false = true ↔ ∃ e rest, s.pend = e :: rest ∧ s.params.latency ≤ e.age) ∧
    ∀ e rest, s.pend = e :: rest → s.params.latency ≤ e.age →
      (s.outputs false).rsp = some ⟨e.rsp.status.code, e.rsp.value, e.rsp.len, e.rsp.adv, e.rsp.bytes.toBus⟩

/-- The invariant of the queue holds at reset. -/
def Obligations.QueueIsSoundAtReset : Prop :=
  State.reset.QueueSound ∧
    ∀ (c : Params) (stream : Nat), (State.resetWith c).QueueSound ∧ (State.powerOn c stream).QueueSound

/-- Every step keeps the queue sound: at most `DEPTH` entries, in acceptance order with ages falling
strictly from the head, each the response of some request, as is each response handed to the host. -/
def Obligations.EveryStepKeepsTheQueueSound : Prop :=
  ∀ s t : State, s.QueueSound → step s = .next t → t.QueueSound

/-- What no step changes: the parameters; the list of inputs, but for the one it takes off; the
responses already handed to the host; and that a reset has happened (R7, R31, R32). -/
def Obligations.StepFrame : Prop :=
  ∀ s t : State, step s = .next t →
    t.params = s.params ∧ t.inputs = s.inputs.tail ∧ s.delivered <+: t.delivered ∧
    (s.live = true → t.live = true ∧ t.fresh = s.fresh) ∧
    (t.delivered ≠ s.delivered → s.live = true ∧ s.nextInput.rst = false ∧ s.nextInput.rspReady = true)

/-- R122: no request traps and none is refused. A step stops only where the host reads the data fields
while they hold no value. -/
def Obligations.StepStopsOnlyOnAReadOfNoValue : Prop :=
  ∀ s : State, (∀ r, step s ≠ .refused r) ∧
    ∀ f, step s = .fault f ↔
      s.nextInput.hostReads = true ∧ s.rspFields s.nextInput.rst = none ∧
      f = (if s.live then .rspReadWhileInvalid else .readBeforeReset)

/-- R31 and R46: over any run without a reset edge, the responses handed to the host followed by those
still queued are the earlier ones followed by the response of each request accepted in the run, in order
and each exactly once. -/
def Obligations.ResponsesComeOnceEachInOrder : Prop :=
  ∀ (k : Nat) (s t : State), s.live = true → s.noResetIn k → runFor k s = .next t →
    t.responseTrace = s.responseTrace ++ (acceptedIn k s).map respond

/-- R146: a response is not delivered within `LATENCY` edges of the edge that accepted its request: after
`k < LATENCY` more edges it is still queued, `k` edges older. -/
def Obligations.NoDeliveryBeforeLatency : Prop :=
  ∀ (k : Nat) (s t t' : State), s.live = true → accepts s.nextInput s = true → step s = .next t →
    t.noResetIn k → k < s.params.latency → runFor k t = .next t' →
    ⟨respond s.nextInput.request, k + 1⟩ ∈ t'.pend

/-- R147: the responses queued are all delivered, in order, once the host has been ready at
`LATENCY + |pend|` edges, however those edges are spread, in every run that completes, whether the host
reads the data fields or not; a run without such reads completes; and an edge that delivers from a full
queue leaves `req_ready = 1`. -/
def Obligations.QueuedResponsesAreDelivered : Prop :=
  (∀ s : State, s.live = true → s.noResetIn s.inputs.length →
    s.params.latency + s.pend.length ≤ s.readyEdges →
    (s.noReads → ∃ t : State, runFor s.inputs.length s = .next t) ∧
    ∀ t : State, runFor s.inputs.length s = .next t →
      (s.delivered ++ s.pend.map (·.rsp)) <+: t.delivered) ∧
  ∀ s t : State, s.live = true → s.pend.length = s.params.depth → step s = .next t →
    t.delivered ≠ s.delivered → t.reqReady false = true

/-- R144: while `rsp_valid = 1` and the host does not take the response, the level and the data fields
stay as they are. -/
def Obligations.HeldResponseStaysOnThePort : Prop :=
  ∀ s : State, s.live = true → s.rspValid false = true → s.nextInput.rst = false →
    s.nextInput.rspReady = false →
    ∃ t : State, step s = .next t ∧ t.rspValid false = true ∧
      (t.outputs false).rsp = (s.outputs false).rsp

/-- R144 with R36: a request that finds the queue full waits, although the head leaves at that edge; a
host that holds it as its duty says has it accepted, unchanged, at the next edge without a reset. -/
def Obligations.HeldRequestIsAcceptedAfterTheNextDelivery : Prop :=
  ∀ s t : State, s.live = true → s.nextInput.rst = false → s.nextInput.reqValid = true →
    s.pend.length = s.params.depth → s.HoldsRequest → step s = .next t → t.delivered ≠ s.delivered →
    t.nextInput.rst = false →
    accepts s.nextInput s = false ∧ accepts t.nextInput t = true ∧
      t.nextInput.request = s.nextInput.request

/-- R128: a step of one instance moves that instance as it moves alone, and leaves every other one. -/
def Obligations.InstancesAreIndependent : Prop :=
  ∀ (k : Nat) (sys sys' : System), System.stepAt k sys = .next sys' →
    sys'.length = sys.length ∧ (∀ j, j ≠ k → sys'[j]? = sys[j]?) ∧
    ∀ s, sys[k]? = some s → ∃ t, step s = .next t ∧ sys'[k]? = some t
end

