-- ==== Sys2Proof/Laws/Codec.lean ====
section
/-! SUPPORT. The laws of the codec functions: big-endian bytes, tables, lengths, packing and unpacking. -/

namespace Sys2Proof

/-- A concatenation as a number (R9). -/
theorem toNat_append_eq {m n : Nat} (x : BitVec m) (y : BitVec n) :
    (x ++ y).toNat = x.toNat * 2 ^ n + y.toNat := by
  rw [BitVec.toNat_append, ← Nat.shiftLeft_add_eq_or_of_lt y.isLt, Nat.shiftLeft_eq]

theorem Len.toNat_pos (n : Len) : 1 ≤ n.toNat := by cases n <;> decide
theorem Len.toNat_le (n : Len) : n.toNat ≤ 9 := by cases n <;> decide
theorem Len.toNat_inj {m n : Len} (h : m.toNat = n.toNat) : m = n := by
  cases m <;> cases n <;> first | rfl | exact absurd h (by decide)
@[simp] theorem Len.toNat_code (n : Len) : n.code.toNat = n.toNat := by cases n <;> decide

theorem Lanes.length_toList (b : Lanes) : b.toList.length = 9 := rfl

/-- Lane `i` is the `i`-th byte of the window. -/
theorem Lanes.getElem_toList (b : Lanes) (i : Fin 9) : b.toList[i.val]'(i.isLt) = b.lane i := by
  fin_cases i <;> rfl

/-- A lane that was written holds its byte, and one that was not holds `0x00` (R61). -/
theorem Lanes.lane_ofList (l : List Byte) (i : Fin 9) : (Lanes.ofList l).lane i = l.getD i.val 0 := by
  fin_cases i <;> rfl

/-- The window of at most nine bytes is these bytes, then `0x00` in the lanes that are left (R61). -/
theorem Lanes.toList_ofList (l : List Byte) (h : l.length ≤ 9) :
    (Lanes.ofList l).toList = l ++ List.replicate (9 - l.length) 0 := by
  refine List.ext_getElem (by simp [Lanes.length_toList]; omega) fun k hk _ => ?_
  have hlane := ((Lanes.ofList l).getElem_toList ⟨k, hk⟩).trans (Lanes.lane_ofList l ⟨k, hk⟩)
  rw [List.getElem_append]
  refine hlane.trans ?_
  split <;> simp_all [List.getD_eq_getElem?_getD]

@[simp] theorem Lanes.ofList_toList (b : Lanes) : Lanes.ofList b.toList = b := rfl

theorem Lanes.take_ofList (l : List Byte) (h : l.length ≤ 9) :
    (Lanes.ofList l).toList.take l.length = l := by
  rw [Lanes.toList_ofList l h, List.take_left]

theorem Lanes.ext_toList {a b : Lanes} (h : a.toList = b.toList) : a = b := by
  rw [← Lanes.ofList_toList a, h, Lanes.ofList_toList]

/-- Windows whose first `n` lanes agree have the same first `n` bytes. -/
theorem Lanes.take_congr {a b : Lanes} {n : Nat} (h : ∀ i : Fin 9, i.val < n → a.lane i = b.lane i) :
    a.toList.take n = b.toList.take n := by
  apply List.ext_getElem
  · simp [Lanes.length_toList]
  · intro i h1 h2
    simp only [List.length_take, Lanes.length_toList, lt_min_iff] at h1
    simp only [List.getElem_take]
    exact (a.getElem_toList ⟨i, h1.2⟩).trans ((h ⟨i, h1.2⟩ h1.1).trans (b.getElem_toList ⟨i, h1.2⟩).symm)

@[simp] theorem Lanes.ofBus_toBus (b : Lanes) : Lanes.ofBus b.toBus = b := by
  obtain ⟨b0, b1, b2, b3, b4, b5, b6, b7, b8⟩ := b
  simp only [Lanes.ofBus, Lanes.toBus, Lanes.mk.injEq]
  have := b0.isLt; have := b1.isLt; have := b2.isLt; have := b3.isLt; have := b4.isLt
  have := b5.isLt; have := b6.isLt; have := b7.isLt; have := b8.isLt
  refine ⟨?_, ?_, ?_, ?_, ?_, ?_, ?_, ?_, ?_⟩ <;>
  · apply BitVec.eq_of_toNat_eq
    simp only [BitVec.extractLsb'_toNat, toNat_append_eq, Nat.shiftRight_eq_div_pow]
    omega

/-- Every bus value is the bus of the window it carries (R42). -/
@[simp] theorem Lanes.toBus_ofBus (w : BitVec 72) : (Lanes.ofBus w).toBus = w := by
  apply BitVec.eq_of_toNat_eq
  simp only [Lanes.toBus, Lanes.ofBus, toNat_append_eq, BitVec.extractLsb'_toNat, Nat.shiftRight_eq_div_pow]
  have := w.isLt
  omega

namespace Machine

/-- The bus of a window is the big-endian number of its lanes (R42). -/
theorem toNat_toBus (b : Lanes) : b.toBus.toNat = beNat b.toList := by
  simp only [Lanes.toBus, toNat_append_eq, Lanes.toList, beNat, List.length_cons, List.length_nil]
  omega

/-- The fields of a request's own word are the request's (R58). -/
@[simp] theorem requestOfWord_wordOfRequest (q : Request) : requestOfWord (wordOfRequest q) = q := by
  obtain ⟨op, a, b, avail⟩ := q
  have := op.isLt; have := a.isLt; have := b.toBus.isLt; have := avail.isLt
  have h (start len : Nat) :
      ((wordOfRequest ⟨op, a, b, avail⟩).extractLsb' start len).toNat =
        (((op.toNat * 2 ^ 64 + a.toNat) * 2 ^ 72 + b.toBus.toNat) * 2 ^ 4 + avail.toNat) / 2 ^ start %
          2 ^ len := by
    simp only [wordOfRequest, BitVec.extractLsb'_toNat, toNat_append_eq, Nat.shiftRight_eq_div_pow]
  have hop : (wordOfRequest ⟨op, a, b, avail⟩).extractLsb' 140 3 = op :=
    BitVec.eq_of_toNat_eq (by rw [h]; omega)
  have ha : (wordOfRequest ⟨op, a, b, avail⟩).extractLsb' 76 64 = a :=
    BitVec.eq_of_toNat_eq (by rw [h]; omega)
  have hb : (wordOfRequest ⟨op, a, b, avail⟩).extractLsb' 4 72 = b.toBus :=
    BitVec.eq_of_toNat_eq (by rw [h]; omega)
  have hv : (wordOfRequest ⟨op, a, b, avail⟩).extractLsb' 0 4 = avail :=
    BitVec.eq_of_toNat_eq (by rw [h]; omega)
  simp only [requestOfWord, hop, ha, hb, hv, Lanes.ofBus_toBus]

/-- The lanes of a request word (R58): lane `i` is its bits `[75-8i : 68-8i]`. -/
theorem lane_requestOfWord (w : BitVec 143) (i : Fin 9) :
    (requestOfWord w).b.lane i = w.extractLsb' (68 - 8 * i.val) 8 := by
  have h (k : Nat) (hk : k + 8 ≤ 72) :
      (w.extractLsb' 4 72).extractLsb' k 8 = w.extractLsb' (4 + k) 8 := by
    ext j hj
    simp only [BitVec.getElem_extractLsb', BitVec.getLsbD_extractLsb', Nat.add_assoc]
    simp only [Bool.and_eq_right_iff_imp, decide_eq_true_eq]
    omega
  fin_cases i <;> exact h _ (by decide)

theorem length_beBytes (n : Nat) (w : BitVec 72) : (beBytes n w).length = n := by
  induction n with
  | zero => rfl
  | succ n ih => simp [beBytes, ih]

/-- Reading back the low `n` bytes gives the number's low `8n` bits. -/
theorem beNat_beBytes (n : Nat) (w : BitVec 72) : beNat (beBytes n w) = w.toNat % 2 ^ (8 * n) := by
  induction n with
  | zero => simp [beBytes, beNat, Nat.mod_one]
  | succ n ih =>
    simp only [beBytes, beNat, ih, length_beBytes, BitVec.extractLsb'_toNat, Nat.shiftRight_eq_div_pow]
    have h : 2 ^ (8 * (n + 1)) = 2 ^ (8 * n) * 2 ^ 8 := by rw [← pow_add]; ring_nf
    rw [h, Nat.mod_mul]
    ring

theorem beNat_lt (l : List Byte) : beNat l < 2 ^ (8 * l.length) := by
  induction l with
  | nil => simp [beNat]
  | cons b l ih =>
    have hb := b.isLt
    have h : 2 ^ (8 * (l.length + 1)) = 2 ^ 8 * 2 ^ (8 * l.length) := by rw [← pow_add]; ring_nf
    simp only [beNat, List.length_cons, h]
    nlinarith [Nat.two_pow_pos (8 * l.length)]

/-- Byte sequences of one length are told apart by their numbers. -/
theorem beNat_inj {l m : List Byte} (hl : l.length = m.length) (h : beNat l = beNat m) : l = m := by
  induction l generalizing m with
  | nil => cases m <;> simp_all
  | cons a l ih =>
    cases m with
    | nil => simp at hl
    | cons b m =>
      simp only [List.length_cons, Nat.add_right_cancel_iff] at hl
      simp only [beNat, hl] at h
      have h1 := beNat_lt l
      have h2 := beNat_lt m
      rw [hl] at h1
      have hpos := Nat.two_pow_pos (8 * m.length)
      have hq := congrArg (· / 2 ^ (8 * m.length)) h
      have hr := congrArg (· % 2 ^ (8 * m.length)) h
      simp only [Nat.mul_comm _ (2 ^ (8 * m.length)), Nat.mul_add_div hpos, Nat.mul_add_mod,
        Nat.div_eq_of_lt h1, Nat.div_eq_of_lt h2, Nat.mod_eq_of_lt h1, Nat.mod_eq_of_lt h2] at hq hr
      rw [ih hl hr, BitVec.eq_of_toNat_eq (x := a) (y := b) (by omega)]

/-- Byte `i` of `n` big-endian bytes is bits `[8(n-1-i)+7 : 8(n-1-i)]` (R41). -/
theorem getD_beBytes (w : BitVec 72) {n i : Nat} (hi : i < n) :
    (beBytes n w).getD i 0 = w.extractLsb' (8 * (n - 1 - i)) 8 := by
  induction n generalizing i with
  | zero => omega
  | succ n ih =>
    cases i with
    | zero => rfl
    | succ i =>
      rw [beBytes, List.getD_cons_succ, ih (by omega)]
      congr 2
      omega

/-- The same of the lanes they fill (R71). -/
theorem lane_beBytes {n : Nat} (w : BitVec 72) (i : Fin 9) (hi : i.val < n) :
    (Lanes.ofList (beBytes n w)).lane i = w.extractLsb' (8 * (n - 1 - i.val)) 8 :=
  (Lanes.lane_ofList _ i).trans (getD_beBytes w hi)

/-! ### Tables and lengths -/

/-- Capacities grow with the length (R21). -/
theorem maxv_mono {m n : Len} (h : m.toNat ≤ n.toNat) : maxv m ≤ maxv n := by
  cases m <;> cases n <;> first | decide | exact absurd h (by decide)

/-- The value fits in the length that `LenOf` answers (R75 b). -/
theorem le_maxv_lenOf (u : Word) : u ≤ maxv (lenOf u) := by
  unfold lenOf
  repeat' split
  all_goals first
    | assumption
    | exact BitVec.le_def.mpr (Nat.le_of_lt_succ u.isLt)

/-- A value fits in exactly the lengths from `LenOf` up (R70). -/
theorem le_maxv_iff (u : Word) (n : Len) : u ≤ maxv n ↔ (lenOf u).toNat ≤ n.toNat := by
  constructor
  · intro h
    unfold lenOf
    repeat' split
    all_goals first
      | exact n.toNat_pos
      | (cases n <;> first | decide | contradiction)
  · intro h
    exact BitVec.le_trans (le_maxv_lenOf u) (maxv_mono h)

theorem lenOf_eq_of_fits {u : Word} {n : Len} (h : u ≤ maxv n)
    (hmin : ∀ m : Len, m.toNat < n.toNat → ¬ u ≤ maxv m) : lenOf u = n := by
  apply Len.toNat_inj
  have h1 := (le_maxv_iff u n).mp h
  by_contra hne
  exact hmin (lenOf u) (by omega) (le_maxv_lenOf u)

/-- The tag prefix and a payload that fits do not overlap, so ORing them adds them (R23, R71). -/
theorem toNat_tagged {n : Len} {u : Word} (h : u ≤ maxv n) :
    (tagp n ||| u.setWidth 72).toNat = (tagp n).toNat + u.toNat := by
  have hu : u.toNat % 2 ^ 72 = u.toNat := Nat.mod_eq_of_lt (by have := u.isLt; omega)
  have key : ∀ i c : Nat, (tagp n).toNat = 2 ^ i * c → u.toNat < 2 ^ i →
      (tagp n ||| u.setWidth 72).toNat = (tagp n).toNat + u.toNat := by
    intro i c h1 h2
    rw [BitVec.toNat_or, BitVec.toNat_setWidth, hu, h1, Nat.two_pow_add_eq_or_of_lt h2]
  rw [BitVec.le_def] at h
  cases n
  · exact key 7 0 (by decide) (by simp [maxv] at h; omega)
  · exact key 14 2 (by decide) (by simp [maxv] at h; omega)
  · exact key 21 6 (by decide) (by simp [maxv] at h; omega)
  · exact key 28 14 (by decide) (by simp [maxv] at h; omega)
  · exact key 35 30 (by decide) (by simp [maxv] at h; omega)
  · exact key 42 62 (by decide) (by simp [maxv] at h; omega)
  · exact key 49 126 (by decide) (by simp [maxv] at h; omega)
  · exact key 56 254 (by decide) (by simp [maxv] at h; omega)
  · exact key 64 255 (by decide) (by simp [maxv] at h; omega)

/-- The low `n` bytes depend on the low `8n` bits alone. -/
theorem beBytes_congr (n : Nat) {v w : BitVec 72} (h : v.toNat % 2 ^ (8 * n) = w.toNat % 2 ^ (8 * n)) :
    beBytes n v = beBytes n w := by
  induction n with
  | zero => rfl
  | succ n ih =>
    have hs : 2 ^ (8 * (n + 1)) = 2 ^ (8 * n) * 2 ^ 8 := by rw [← pow_add]; ring_nf
    rw [hs, Nat.mod_mul, Nat.mod_mul] at h
    have hp := Nat.two_pow_pos (8 * n)
    have hv := Nat.mod_lt v.toNat hp
    have hw := Nat.mod_lt w.toNat hp
    have hlow : v.toNat % 2 ^ (8 * n) = w.toNat % 2 ^ (8 * n) := by
      have := congrArg (· % 2 ^ (8 * n)) h
      simpa [Nat.add_mul_mod_self_left] using this
    have htop : v.toNat / 2 ^ (8 * n) % 2 ^ 8 = w.toNat / 2 ^ (8 * n) % 2 ^ 8 := by
      rw [hlow] at h
      exact Nat.eq_of_mul_eq_mul_left hp (by omega)
    simp only [beBytes, List.cons.injEq]
    refine ⟨BitVec.eq_of_toNat_eq ?_, ih hlow⟩
    simpa [BitVec.extractLsb'_toNat, Nat.shiftRight_eq_div_pow] using htop

/-- The window of an encoding, for every length in one form: nine bytes too are the tagged value
written big-endian (R71). -/
theorem packAt_eq (n : Len) (u : Word) (h : u ≤ maxv n) :
    packAt n u = Lanes.ofList (beBytes n.toNat (tagp n ||| u.setWidth 72)) := by
  cases n <;> try rfl
  have ht := toNat_tagged h
  have hu := u.isLt
  have h9 : tagp .l9 = 0xFF0000000000000000#72 := rfl
  have h0 : (tagp .l9 ||| u.setWidth 72).extractLsb' 64 8 = 0xFF#8 := by
    apply BitVec.eq_of_toNat_eq
    rw [BitVec.extractLsb'_toNat, ht, Nat.shiftRight_eq_div_pow, h9]
    simp only [BitVec.toNat_ofNat]
    omega
  have h8 : beBytes 8 (tagp .l9 ||| u.setWidth 72) = beBytes 8 (u.setWidth 72) := by
    apply beBytes_congr
    rw [ht, h9, BitVec.toNat_setWidth]
    simp only [BitVec.toNat_ofNat]
    omega
  show Lanes.ofList _ = Lanes.ofList ((tagp .l9 ||| u.setWidth 72).extractLsb' (8 * 8) 8 :: beBytes 8 _)
  rw [h8]
  exact congrArg (fun t => Lanes.ofList (t :: beBytes 8 (u.setWidth 72))) h0.symm

/-- The first `n` lanes of an encoding, as one number, are its tag plus its payload. -/
theorem beNat_packAt {n : Len} {u : Word} (h : u ≤ maxv n) :
    beNat ((packAt n u).toList.take n.toNat) = (tagp n).toNat + u.toNat := by
  have hl := length_beBytes n.toNat (tagp n ||| u.setWidth 72)
  have := Lanes.take_ofList (beBytes n.toNat (tagp n ||| u.setWidth 72)) (by rw [hl]; exact n.toNat_le)
  rw [hl] at this
  rw [packAt_eq n u h, this, beNat_beBytes, toNat_tagged h]
  apply Nat.mod_eq_of_lt
  rw [BitVec.le_def] at h
  cases n <;> simp [maxv, tagp, Len.toNat] at h ⊢ <;> omega

/-- Lanes at and above the length are `0x00` (R71, R75 e). -/
theorem packAt_lane_zero {n : Len} {u : Word} (i : Fin 9) (hi : n.toNat ≤ i.val) :
    (packAt n u).lane i = 0 := by
  cases n <;> fin_cases i <;> first | rfl | exact absurd hi (by decide)

/-- Byte 0 of an encoding as a number: the tag bits plus the payload bits above the continuation bytes. -/
theorem toNat_packAt_b0 {n : Len} {u : Word} (h : u ≤ maxv n) :
    (packAt n u).b0.toNat = (tagb n).toNat + u.toNat / 2 ^ (8 * (n.toNat - 1)) := by
  have hb : (packAt n u).b0 = (tagp n ||| u.setWidth 72).extractLsb' (8 * (n.toNat - 1)) 8 := by
    rw [packAt_eq n u h]; cases n <;> rfl
  rw [hb, BitVec.extractLsb'_toNat, toNat_tagged h, Nat.shiftRight_eq_div_pow]
  rw [BitVec.le_def] at h
  cases n <;> simp [maxv, tagp, tagb, Len.toNat] at h ⊢ <;> omega

/-! ### Tag bytes -/

/-- `TagLen(t) = clo8(t) + 1` (R90, R25). -/
theorem toNat_tagLen : ∀ t : Byte, (tagLen t).toNat = clo8 t + 1 := by decide

/-- The tag bytes that declare a length are those from its tag pattern to the pattern with all payload
bits set (R25). -/
theorem tagLen_of_range : ∀ (n : Len) (t : Byte), (tagb n).toNat ≤ t.toNat →
    t.toNat ≤ (tagb n).toNat + (pmask0 n).toNat → tagLen t = n := by
  intro n; cases n <;> decide

/-- Byte 0 of an encoding declares its length (R75 c). -/
theorem tagLen_packAt {n : Len} {u : Word} (h : u ≤ maxv n) : tagLen (packAt n u).b0 = n := by
  apply tagLen_of_range
  · rw [toNat_packAt_b0 h]; exact Nat.le_add_right _ _
  · rw [toNat_packAt_b0 h]
    rw [BitVec.le_def] at h
    cases n <;> simp [maxv, pmask0, Len.toNat] at h ⊢ <;> omega

/-- A tag byte is its pattern plus its payload bits (R22, R24, R51). -/
theorem toNat_tag_split : ∀ t : Byte,
    t.toNat = (tagb (tagLen t)).toNat + (t &&& pmask0 (tagLen t)).toNat := by decide

/-! ### Unpacking -/

theorem toNat_and_maxv (n : Len) (w : Word) :
    (w &&& maxv n).toNat = w.toNat % 2 ^ (if n = .l9 then 64 else 7 * n.toNat) := by
  rw [BitVec.toNat_and]
  cases n <;> simp only [maxv, Len.toNat, reduceCtorEq, if_false, if_true]
  · exact Nat.and_two_pow_sub_one_eq_mod w.toNat 7
  · exact Nat.and_two_pow_sub_one_eq_mod w.toNat 14
  · exact Nat.and_two_pow_sub_one_eq_mod w.toNat 21
  · exact Nat.and_two_pow_sub_one_eq_mod w.toNat 28
  · exact Nat.and_two_pow_sub_one_eq_mod w.toNat 35
  · exact Nat.and_two_pow_sub_one_eq_mod w.toNat 42
  · exact Nat.and_two_pow_sub_one_eq_mod w.toNat 49
  · exact Nat.and_two_pow_sub_one_eq_mod w.toNat 56
  · exact Nat.and_two_pow_sub_one_eq_mod w.toNat 64

/-- The unpacked value, for every length in one form: the lanes as one number, less the tag (R92). -/
theorem toNat_unpack {b : Lanes} {n : Len} (h : tagLen b.b0 = n) :
    (unpack b n).toNat + (tagp n).toNat = beNat (b.toList.take n.toNat) := by
  have hs := toNat_tag_split b.b0
  rw [h] at hs
  have hm : (b.b0 &&& pmask0 n).toNat ≤ (pmask0 n).toNat := by
    rw [BitVec.toNat_and]; exact Nat.and_le_right
  obtain ⟨b0, b1, b2, b3, b4, b5, b6, b7, b8⟩ := b
  have := b1.isLt; have := b2.isLt; have := b3.isLt; have := b4.isLt
  have := b5.isLt; have := b6.isLt; have := b7.isLt; have := b8.isLt
  generalize hq : (b0 &&& pmask0 n).toNat = q at hs hm
  cases n <;>
    simp [unpack, -BitVec.toNat_and, toNat_and_maxv, beNat, Lanes.toList, Len.toNat, tagp, tagb, pmask0] at hs hm ⊢ <;>
    omega

/-- Unpacking depends on the first `n` lanes alone (R93). -/
theorem unpack_congr {a b : Lanes} {n : Len} (h : ∀ i : Fin 9, i.val < n.toNat → a.lane i = b.lane i) :
    unpack a n = unpack b n := by
  have h0 : a.b0 = b.b0 := h 0 n.toNat_pos
  have ht := Lanes.take_congr h
  cases n
  case l1 => simp [unpack, h0]
  case l9 =>
    have : a = b := Lanes.ext_toList (by simpa [Lanes.toList, Len.toNat] using ht)
    rw [this]
  all_goals simp only [unpack]; rw [ht]

/-- Unpacking an encoding gives its payload (R75 d). -/
theorem unpack_packAt {n : Len} {u : Word} (h : u ≤ maxv n) : unpack (packAt n u) n = u := by
  have h1 := toNat_unpack (tagLen_packAt h)
  rw [beNat_packAt h] at h1
  exact BitVec.eq_of_toNat_eq (by omega)

/-- An unpacked value fits in the declared length (R51). -/
theorem unpack_le_maxv {b : Lanes} {n : Len} (h : tagLen b.b0 = n) : unpack b n ≤ maxv n := by
  rw [BitVec.le_def]
  cases n
  case l9 => exact Nat.le_of_lt_succ (unpack b .l9).isLt
  case l1 =>
    have hs := toNat_tag_split b.b0
    rw [h] at hs
    have hm : (b.b0 &&& pmask0 .l1).toNat ≤ (pmask0 .l1).toNat := by
      rw [BitVec.toNat_and]; exact Nat.and_le_right
    simp [unpack, maxv, tagb, pmask0] at hs hm ⊢
    omega
  all_goals
    simp only [unpack, BitVec.toNat_and]
    exact Nat.and_le_right

/-! ### Zigzag -/

/-- The arithmetic shift by 63 copies the sign into every bit (R110). -/
theorem sshiftRight_63 (v : Word) : v.sshiftRight 63 = if v.msb then BitVec.allOnes 64 else 0 := by
  have hlt (i : Nat) (hi : i < 64) : (v.sshiftRight 63)[i] = v.msb := by
    rw [BitVec.getElem_sshiftRight]
    by_cases h0 : i = 0
    · subst h0
      simp [BitVec.msb_eq_getLsbD_last]
    · exact dif_neg (by omega)
  ext i hi
  rw [hlt i hi]
  cases v.msb
  · exact (BitVec.getElem_zero hi).symm
  · exact (BitVec.getElem_allOnes i hi).symm

/-- The encode by the sign of its operand: `v << 1`, or its complement (R110). -/
theorem zigzagEncode_eq (v : Word) : zigzagEncode v = if v.msb then ~~~(v <<< 1) else v <<< 1 := by
  unfold zigzagEncode
  rw [sshiftRight_63]
  split
  · rw [BitVec.allOnes_xor]
  · simp

/-- The decode by the parity of its operand: `u >> 1`, or its complement (R111). -/
theorem zigzagDecode_eq (u : Word) : zigzagDecode u = if u.getLsbD 0 then ~~~(u >>> 1) else u >>> 1 := by
  unfold zigzagDecode
  have h : u &&& 1 = if u.getLsbD 0 then 1 else 0 := by
    apply BitVec.eq_of_toNat_eq
    rw [BitVec.toNat_and, show (1 : Word).toNat = 2 ^ 1 - 1 from rfl, Nat.and_two_pow_sub_one_eq_mod,
      BitVec.getLsbD, Nat.testBit_zero]
    rcases Nat.mod_two_eq_zero_or_one u.toNat with h | h <;> simp [h]
  rw [h]
  split
  · rw [show (0 - 1 : Word) = BitVec.allOnes 64 from rfl, BitVec.xor_allOnes]
  · simp

/-- The zigzag pattern as a number: `2s` for `s ≥ 0` and `-2s - 1` for `s < 0` (R110). -/
theorem toNat_zigzagEncode (v : Word) :
    ((zigzagEncode v).toNat : Int) = if 0 ≤ v.toInt then 2 * v.toInt else -2 * v.toInt - 1 := by
  have hv := v.isLt
  rw [zigzagEncode_eq, BitVec.toInt_eq_msb_cond, BitVec.msb_eq_decide]
  by_cases h : 2 ^ 63 ≤ v.toNat
  · simp only [h, decide_true, if_true, BitVec.toNat_not, BitVec.toNat_shiftLeft, Nat.shiftLeft_eq]
    split <;> omega
  · simp only [h, decide_false, Bool.false_eq_true, if_false, BitVec.toNat_shiftLeft, Nat.shiftLeft_eq]
    split <;> omega

/-- The decoded value as a signed number: `u / 2` for even `u` and `-(u + 1) / 2` for odd `u` (R111). -/
theorem toInt_zigzagDecode (u : Word) :
    (zigzagDecode u).toInt = if u.toNat % 2 = 0 then (u.toNat / 2 : Int) else -((u.toNat + 1) / 2) := by
  have hu := u.isLt
  rw [zigzagDecode_eq, BitVec.getLsbD, Nat.testBit_zero]
  rcases Nat.mod_two_eq_zero_or_one u.toNat with h | h
  · simp only [h, Nat.zero_ne_one, decide_false, Bool.false_eq_true, if_false, if_true,
      BitVec.toInt_eq_toNat_cond, BitVec.toNat_ushiftRight, Nat.shiftRight_eq_div_pow]
    split <;> omega
  · simp only [h, decide_true, if_true, BitVec.toInt_eq_toNat_cond, BitVec.toNat_not,
      BitVec.toNat_ushiftRight, Nat.shiftRight_eq_div_pow]
    simp
    split <;> omega

theorem zigzagDecode_zigzagEncode (v : Word) : zigzagDecode (zigzagEncode v) = v := by
  have h1 := toNat_zigzagEncode v
  apply BitVec.eq_of_toInt_eq
  rw [toInt_zigzagDecode]
  split at h1 <;> split <;> omega

theorem zigzagEncode_zigzagDecode (u : Word) : zigzagEncode (zigzagDecode u) = u := by
  have h1 := toInt_zigzagDecode u
  have h2 := toNat_zigzagEncode (zigzagDecode u)
  apply BitVec.eq_of_toNat_eq
  split at h1 <;> split at h2 <;> omega

end Machine
end Sys2Proof
end

