-- ==== Sys2Proof/Laws/Assembler.lean ====
section
/-! SUPPORT. The laws of the notation's literals. -/

namespace Sys2Proof.Machine

/-- A pattern written as a `<u64>` is read back. -/
@[simp] theorem u64Literal_toNat (w : Word) : u64Literal w.toNat = some w := by simp [u64Literal, w.isLt]

/-- A pattern written as a signed decimal is read back. -/
@[simp] theorem I64Literal.word_toInt (w : Word) : (I64Literal.decimal w.toInt).word = some w := by
  have h1 := BitVec.le_toInt w
  have h2 := BitVec.toInt_lt (x := w)
  simp only [I64Literal.word]
  rw [if_pos ⟨by simpa using h1, by simpa using h2⟩]
  simp

/-- A window written with all its lanes is read back. -/
@[simp] theorem windowLiteral_toList (b : Lanes) (n : BitVec 4) :
    windowLiteral b.toList n.toNat = some (b, n) := by
  simp [windowLiteral, Lanes.length_toList, n.isLt]

/-- The first `n` lanes are all of a window whose other lanes are `0x00`. -/
theorem ofList_take_toList (b : Lanes) (n : Nat) (hn : n ≤ 9) (h : ∀ i : Fin 9, n ≤ i.val → b.lane i = 0) :
    Lanes.ofList (b.toList.take n) = b := by
  obtain ⟨b0, b1, b2, b3, b4, b5, b6, b7, b8⟩ := b
  interval_cases n <;> simp [Fin.forall_fin_succ, Lanes.lane] at h <;> simp_all [Lanes.toList, Lanes.ofList]

end Sys2Proof.Machine
end

