-- ==== Sys2Proof/Laws/Decode.lean ====
section
/-! SUPPORT. The laws of the instruction decoder and encoder: rows and tags, payloads, request words. -/

namespace Sys2Proof

open Machine

/-! ### Wire formats -/

/-- The row that R51's match and mask select is the one the leading-one count declares (R50, R51). -/
theorem wireRowOf_eq : ∀ t : Byte, (wireRowOf t).map (·.len) = some (tagLen t) := by decide

theorem wireRowOf_some (t : Byte) : ∃ r, wireRowOf t = some r ∧ r.len = tagLen t := by
  have h := wireRowOf_eq t
  cases hr : wireRowOf t <;> simp_all

theorem wirePattern_eq (n : Len) : wirePattern n = tagb n := by cases n <;> rfl

/-- `decodeWire` by the leading-one count. -/
theorem decodeWire_cons (b0 : Byte) (rest : List Byte) :
    decodeWire (b0 :: rest) =
      if rest.length + 1 < (tagLen b0).toNat then .error (.tooShort (tagLen b0) (rest.length + 1))
      else .ok (Instr.ofWire (tagLen b0)
          (wirePayload (tagLen b0) b0 (rest.take ((tagLen b0).toNat - 1))),
        rest.drop ((tagLen b0).toNat - 1)) := by
  obtain ⟨r, hr, hl⟩ := wireRowOf_some b0
  simp only [decodeWire, hr, hl]

/-- Masking byte 0 with `PMASK0[L]` and masking the whole with `MAXV[L]` give the same value (R52, R92). -/
theorem wirePayload_eq_unpack {b : Lanes} {n : Len} (h : tagLen b.b0 = n) :
    wirePayload n b.b0 ((b.toList.take n.toNat).drop 1) = unpack b n := by
  have hu := toNat_unpack h
  have hs := toNat_tag_split b.b0
  rw [h] at hs
  have h0 : (b.toList.take n.toNat) = b.b0 :: (b.toList.take n.toNat).drop 1 := by cases n <;> rfl
  have hl : ((b.toList.take n.toNat).drop 1).length = n.toNat - 1 := by cases n <;> rfl
  rw [h0] at hu
  have hlt := (unpack b n).isLt
  have htp : (tagp n).toNat = (tagb n).toNat * 2 ^ (8 * (n.toNat - 1)) := by cases n <;> rfl
  generalize hc : (b.toList.take n.toNat).drop 1 = cont at *
  apply BitVec.eq_of_toNat_eq
  simp only [beNat, hl, hs, htp, Nat.add_mul] at hu
  have : beNat ((b.b0 &&& pmask0 n) :: cont) = (unpack b n).toNat := by
    simp only [beNat, hl]; omega
  rw [wirePayload, this, BitVec.toNat_ofNat, Nat.mod_eq_of_lt hlt]

/-- The bytes of an encoding are the first lanes of its window (R51, R71). -/
theorem wireBytes_eq {n : Len} {p : Word} (h : p ≤ maxv n) :
    wireBytes n p = (packAt n p).toList.take n.toNat := by
  have h0 : (packAt n p).toList.take n.toNat = (packAt n p).b0 :: ((packAt n p).toList.take n.toNat).drop 1 := by
    cases n <;> rfl
  have hb0 : (wirePattern n ||| (p >>> (8 * (n.toNat - 1))).setWidth 8) = (packAt n p).b0 := by
    apply BitVec.eq_of_toNat_eq
    rw [toNat_packAt_b0 h, wirePattern_eq, BitVec.toNat_or, BitVec.toNat_setWidth,
      BitVec.toNat_ushiftRight, Nat.shiftRight_eq_div_pow]
    rw [BitVec.le_def] at h
    have key : ∀ i c q : Nat, i ≤ 8 → (tagb n).toNat = 2 ^ i * c → q < 2 ^ i →
        (tagb n).toNat ||| q % 2 ^ 8 = (tagb n).toNat + q := by
      intro i c q hi ht hq
      have hq8 : q < 2 ^ 8 := lt_of_lt_of_le hq (Nat.pow_le_pow_right (by omega) hi)
      rw [Nat.mod_eq_of_lt hq8, ht, Nat.two_pow_add_eq_or_of_lt hq]
    cases n
    · exact key 7 0 _ (by omega) (by decide) (by simp [maxv, Len.toNat] at h ⊢; omega)
    · exact key 6 2 _ (by omega) (by decide) (by simp [maxv, Len.toNat] at h ⊢; omega)
    · exact key 5 6 _ (by omega) (by decide) (by simp [maxv, Len.toNat] at h ⊢; omega)
    · exact key 4 14 _ (by omega) (by decide) (by simp [maxv, Len.toNat] at h ⊢; omega)
    · exact key 3 30 _ (by omega) (by decide) (by simp [maxv, Len.toNat] at h ⊢; omega)
    · exact key 2 62 _ (by omega) (by decide) (by simp [maxv, Len.toNat] at h ⊢; omega)
    · exact key 1 126 _ (by omega) (by decide) (by simp [maxv, Len.toNat] at h ⊢; omega)
    · exact key 0 254 _ (by omega) (by decide) (by simp [maxv, Len.toNat] at h ⊢; omega)
    · exact key 0 255 _ (by omega) (by decide) (by simp [maxv, Len.toNat] at h ⊢; omega)
  have hcont : beBytes (n.toNat - 1) (p.setWidth 72) = ((packAt n p).toList.take n.toNat).drop 1 := by
    have hl := length_beBytes n.toNat (tagp n ||| p.setWidth 72)
    have ht := Lanes.take_ofList (beBytes n.toNat (tagp n ||| p.setWidth 72)) (by rw [hl]; exact n.toNat_le)
    rw [hl] at ht
    rw [packAt_eq n p h, ht]
    have hd : (beBytes n.toNat (tagp n ||| p.setWidth 72)).drop 1 =
        beBytes (n.toNat - 1) (tagp n ||| p.setWidth 72) := by cases n <;> rfl
    rw [hd]
    apply beBytes_congr
    rw [toNat_tagged h, BitVec.toNat_setWidth, Nat.mod_eq_of_lt (by have := p.isLt; omega : p.toNat < 2 ^ 72)]
    cases n <;> simp [tagp, Len.toNat] <;> omega
  rw [wireBytes, hb0, hcont, ← h0]

theorem length_wireBytes (n : Len) (p : Word) : (wireBytes n p).length = n.toNat := by
  have := n.toNat_pos
  simp only [wireBytes, List.length_cons, length_beBytes]
  omega

/-- One encoded integer is read from the front of a stream, and the bytes after it are left (R50, R57). -/
theorem decodeWire_wireBytes_append {n : Len} {p : Word} (h : p ≤ maxv n) (rest : List Byte) :
    decodeWire (wireBytes n p ++ rest) = .ok (Instr.ofWire n p, rest) := by
  have hpos := n.toNat_pos
  have htag := tagLen_packAt h
  have hcat := wireBytes_eq h
  have hlen := length_wireBytes n p
  have hcons : wireBytes n p = (packAt n p).b0 :: ((packAt n p).toList.take n.toNat).drop 1 := by
    rw [hcat]; cases n <;> rfl
  have hl : (((packAt n p).toList.take n.toNat).drop 1).length = n.toNat - 1 := by
    rw [hcons] at hlen; simpa using by simp at hlen ⊢; omega
  have hpay := wirePayload_eq_unpack htag
  rw [unpack_packAt h] at hpay
  rw [hcons]
  generalize ((packAt n p).toList.take n.toNat).drop 1 = cont at *
  rw [List.cons_append, decodeWire_cons, htag]
  rw [if_neg (by simp only [List.length_append]; omega)]
  rw [← hl, List.take_left, List.drop_left, hpay]

/-- The bytes of the encoding of an unpacked value are the lanes it was unpacked from. -/
theorem wireBytes_unpack {b : Lanes} {n : Len} (h : tagLen b.b0 = n) :
    wireBytes n (unpack b n) = b.toList.take n.toNat := by
  have hle := unpack_le_maxv h
  rw [wireBytes_eq hle]
  apply beNat_inj
  · simp [Lanes.length_toList]
  · rw [beNat_packAt hle, ← toNat_unpack h, Nat.add_comm]

theorem encode_ofWire (n : Len) (p : Word) : encode (Instr.ofWire n p) = .wire (wireBytes n p) := by
  cases n <;> rfl

theorem wf_ofWire (n : Len) (p : Word) : (Instr.ofWire n p).wf = payloadFits n p := by cases n <;> rfl

/-! ### Request words -/

/-- A command decodes from its own word. -/
theorem decode_commandWord (op : BitVec 3) (a : Word) (b : Lanes) (avail : BitVec 4) :
    decode (commandWord op a b avail) = .ok (decodeRequest ⟨op, a, b, avail⟩) := by
  simp only [commandWord, decode, requestOfWord_wordOfRequest]

end Sys2Proof
end

