-- ==== Sys2Proof/Laws/State.lean ====
section
/-! SUPPORT. One lemma per field per update of State, so that no proof unfolds a record update. -/

namespace Sys2Proof.Machine

section push
variable (s : State) (r : Response)
@[simp] theorem State.push_params : (s.push r).params = s.params := rfl
@[simp] theorem State.push_live : (s.push r).live = s.live := rfl
@[simp] theorem State.push_pend : (s.push r).pend = s.pend ++ [⟨r, 1⟩] := rfl
@[simp] theorem State.push_inputs : (s.push r).inputs = s.inputs := rfl
@[simp] theorem State.push_delivered : (s.push r).delivered = s.delivered := rfl
@[simp] theorem State.push_fresh : (s.push r).fresh = s.fresh := rfl
end push

section deliver
variable (s : State)
@[simp] theorem deliver_params : (deliver s).params = s.params := by unfold deliver; split <;> rfl
@[simp] theorem deliver_live : (deliver s).live = s.live := by unfold deliver; split <;> rfl
@[simp] theorem deliver_inputs : (deliver s).inputs = s.inputs := by unfold deliver; split <;> rfl
@[simp] theorem deliver_fresh : (deliver s).fresh = s.fresh := by unfold deliver; split <;> rfl
theorem deliver_pend : (deliver s).pend = s.pend.tail := by
  unfold deliver; split <;> simp_all
theorem deliver_delivered : (deliver s).delivered = s.delivered ++ (s.pend.head?.map (·.rsp)).toList := by
  unfold deliver; split <;> simp_all
end deliver

section passEdge
variable (s : State)
@[simp] theorem passEdge_params : (passEdge s).params = s.params := rfl
@[simp] theorem passEdge_live : (passEdge s).live = s.live := rfl
@[simp] theorem passEdge_pend :
    (passEdge s).pend = s.pend.map fun e => { e with age := e.age + 1 } := rfl
@[simp] theorem passEdge_inputs : (passEdge s).inputs = s.inputs := rfl
@[simp] theorem passEdge_delivered : (passEdge s).delivered = s.delivered := rfl
@[simp] theorem passEdge_fresh : (passEdge s).fresh = s.fresh := rfl
end passEdge

section resetEdge
variable (s : State)
@[simp] theorem resetEdge_params : (resetEdge s).params = s.params := rfl
@[simp] theorem resetEdge_live : (resetEdge s).live = true := rfl
@[simp] theorem resetEdge_pend : (resetEdge s).pend = [] := rfl
@[simp] theorem resetEdge_inputs : (resetEdge s).inputs = s.inputs := rfl
@[simp] theorem resetEdge_delivered : (resetEdge s).delivered = s.delivered := rfl
@[simp] theorem resetEdge_fresh : (resetEdge s).fresh = s.fresh := rfl
end resetEdge

section unspecifiedEdge
variable (s : State)
@[simp] theorem unspecifiedEdge_params : (unspecifiedEdge s).params = s.params := rfl
@[simp] theorem unspecifiedEdge_live : (unspecifiedEdge s).live = s.live := rfl
@[simp] theorem unspecifiedEdge_inputs : (unspecifiedEdge s).inputs = s.inputs := rfl
@[simp] theorem unspecifiedEdge_delivered : (unspecifiedEdge s).delivered = s.delivered := rfl
@[simp] theorem unspecifiedEdge_fresh : (unspecifiedEdge s).fresh = s.fresh.next := rfl
end unspecifiedEdge

section takeInput
variable (s : State)
@[simp] theorem takeInput_params : s.takeInput.params = s.params := rfl
@[simp] theorem takeInput_live : s.takeInput.live = s.live := rfl
@[simp] theorem takeInput_pend : s.takeInput.pend = s.pend := rfl
@[simp] theorem takeInput_inputs : s.takeInput.inputs = s.inputs.tail := rfl
@[simp] theorem takeInput_delivered : s.takeInput.delivered = s.delivered := rfl
@[simp] theorem takeInput_fresh : s.takeInput.fresh = s.fresh := rfl
@[simp] theorem takeInput_full : s.takeInput.full = s.full := rfl
@[simp] theorem takeInput_headReady : s.takeInput.headReady = s.headReady := rfl
@[simp] theorem takeInput_reqReady (b : Bool) : s.takeInput.reqReady b = s.reqReady b := rfl
@[simp] theorem takeInput_rspValid (b : Bool) : s.takeInput.rspValid b = s.rspValid b := rfl
@[simp] theorem takeInput_rspFields (b : Bool) : s.takeInput.rspFields b = s.rspFields b := rfl
@[simp] theorem takeInput_badRead (p : PortIn) : badRead p s.takeInput = badRead p s := rfl
@[simp] theorem takeInput_accepts (p : PortIn) : accepts p s.takeInput = accepts p s := rfl
end takeInput

section deliverPhase
variable (p : PortIn) (s : State)
@[simp] theorem deliverPhase_params : (deliverPhase p s).params = s.params := by
  unfold deliverPhase; split <;> simp
@[simp] theorem deliverPhase_live : (deliverPhase p s).live = s.live := by
  unfold deliverPhase; split <;> simp
@[simp] theorem deliverPhase_inputs : (deliverPhase p s).inputs = s.inputs := by
  unfold deliverPhase; split <;> simp
@[simp] theorem deliverPhase_fresh : (deliverPhase p s).fresh = s.fresh := by
  unfold deliverPhase; split <;> simp
end deliverPhase

end Sys2Proof.Machine
end

