-- ==== Sys2Proof/Laws/Ops.lean ====
section
/-! SUPPORT. What each shared operation can do, said once: acceptance, the levels of the port, the
delivery phase of an edge, and the edge itself. -/

namespace Sys2Proof.Machine

theorem full_eq_false_iff (s : State) : s.full = false ↔ s.pend.length < s.params.depth := by
  simp [State.full]

theorem full_iff (s : State) : s.full = true ↔ s.params.depth ≤ s.pend.length := by
  simp [State.full]

theorem headReady_iff (s : State) :
    s.headReady = true ↔ ∃ e rest, s.pend = e :: rest ∧ s.params.latency ≤ e.age := by
  unfold State.headReady
  split <;> simp_all

/-- `accept` with room appends its response (R30). -/
theorem accept_of_room {s : State} (r : Response) (h : s.pend.length < s.params.depth) :
    accept r s = .next (s.push r) := by
  rw [accept, (full_eq_false_iff s).mpr h]; rfl

/-- `accept` without room changes nothing (R36). -/
theorem accept_of_full {s : State} (r : Response) (h : s.params.depth ≤ s.pend.length) :
    accept r s = .next s := by
  rw [accept, (full_iff s).mpr h]; rfl

/-! ### One response per instruction -/

/-- The response an instruction is accepted with, whatever the state. -/
def responseOf : Instr → Response
  | .encu a => encuResponse a
  | .encs a => encsResponse a
  | .decu b avail => decuResponse b avail
  | .decs b avail => decsResponse b avail
  | .zze a => zzeResponse a
  | .zzd a => zzdResponse a
  | .lenu a => lenuResponse a
  | .taglen t => taglenResponse t
  | .varintL1 p => wireResponse .l1 p
  | .varintL2 p => wireResponse .l2 p
  | .varintL3 p => wireResponse .l3 p
  | .varintL4 p => wireResponse .l4 p
  | .varintL5 p => wireResponse .l5 p
  | .varintL6 p => wireResponse .l6 p
  | .varintL7 p => wireResponse .l7 p
  | .varintL8 p => wireResponse .l8 p
  | .varintL9 p => wireResponse .l9 p

/-- Every instruction is the acceptance of its response. -/
theorem exec_eq (i : Instr) (s : State) : exec i s = accept (responseOf i) s := by
  cases i <;> rfl

theorem responseOf_ofWire (n : Len) (p : Word) : responseOf (Instr.ofWire n p) = wireResponse n p := by
  cases n <;> rfl

/-- Decoding a request and running its instruction is `Respond` (R30). -/
theorem responseOf_decodeRequest (q : Request) : responseOf (decodeRequest q) = respond q := by
  unfold decodeRequest respond
  rcases q.op.toNat with _ | _ | _ | _ | _ | _ | _ | k <;> rfl

theorem exec_decodeRequest (q : Request) (s : State) :
    exec (decodeRequest q) s = accept (respond q) s := by
  rw [exec_eq, responseOf_decodeRequest]

/-! ### The delivery phase -/

/-- The delivery phase either takes the head, which was ready, or leaves the queue; the entries that
stay are one edge older (R36). -/
theorem deliverPhase_cases (p : PortIn) (s : State) :
    (p.rspReady = true ∧ ∃ e rest, s.pend = e :: rest ∧ s.params.latency ≤ e.age ∧
      deliverPhase p s = passEdge { s with pend := rest, delivered := s.delivered ++ [e.rsp] }) ∨
    ((p.rspReady = false ∨ s.headReady = false) ∧ deliverPhase p s = passEdge s) := by
  cases hr : p.rspReady
  · exact .inr ⟨.inl rfl, by simp [deliverPhase, hr]⟩
  cases hh : s.headReady
  · exact .inr ⟨.inr rfl, by simp [deliverPhase, hh]⟩
  · obtain ⟨e, rest, hp, ha⟩ := (headReady_iff s).mp hh
    refine .inl ⟨rfl, e, rest, hp, ha, ?_⟩
    simp [deliverPhase, hr, hh, deliver, hp]

theorem length_deliverPhase_le (p : PortIn) (s : State) :
    (deliverPhase p s).pend.length ≤ s.pend.length := by
  obtain ⟨-, e, rest, hp, -, h⟩ | ⟨-, h⟩ := deliverPhase_cases p s <;> rw [h] <;> simp [*]

/-! ### The edge -/

/-- An edge that accepts has room for the response, a delivery at the same edge or not (R36). -/
theorem accepts_iff (p : PortIn) (s : State) :
    accepts p s = true ↔
      p.reqValid = true ∧ s.live = true ∧ p.rst = false ∧ s.pend.length < s.params.depth := by
  simp only [accepts, State.reqReady, Bool.and_eq_true, ← full_eq_false_iff]
  cases p.rst <;> cases s.live <;> simp

theorem rspFields_isNone_iff (s : State) (rst : Bool) :
    (s.rspFields rst).isNone = true ↔ s.live = false ∨ rst = true ∨ s.headReady = false := by
  unfold State.rspFields State.rspValid
  cases hl : s.live <;> cases rst <;> simp
  cases hh : s.headReady
  · simp
  · obtain ⟨e, rest, hp, -⟩ := (headReady_iff s).mp hh
    simp [hp]

/-- An accepting edge is the execution of the request's instruction after the delivery phase. -/
theorem edge_of_accepts {p : PortIn} {s : State} (hb : badRead p s = false) (ha : accepts p s = true) :
    edge p s = exec (decodeRequest p.request) (deliverPhase p s) := by
  obtain ⟨-, hl, hr, -⟩ := (accepts_iff p s).mp ha
  simp [edge, hb, hr, hl, ha]

/-- … and its result. -/
theorem edge_accept_eq {p : PortIn} {s : State} (hb : badRead p s = false) (ha : accepts p s = true) :
    edge p s = .next ((deliverPhase p s).push (respond p.request)) := by
  obtain ⟨-, -, -, hroom⟩ := (accepts_iff p s).mp ha
  rw [edge_of_accepts hb ha, exec_decodeRequest, accept_of_room]
  simpa using lt_of_le_of_lt (length_deliverPhase_le p s) hroom

/-- What an edge can do: one of these five things, and each with what brought it about. -/
theorem edge_cases (p : PortIn) (s : State) :
    (badRead p s = true ∧ edge p s = .fault (badReadFault s)) ∨
    (badRead p s = false ∧ p.rst = true ∧ edge p s = .next (resetEdge s)) ∨
    (badRead p s = false ∧ p.rst = false ∧ s.live = false ∧ edge p s = .next (unspecifiedEdge s)) ∨
    (badRead p s = false ∧ p.rst = false ∧ s.live = true ∧ accepts p s = true ∧
      edge p s = .next ((deliverPhase p s).push (respond p.request))) ∨
    (badRead p s = false ∧ p.rst = false ∧ s.live = true ∧ accepts p s = false ∧
      edge p s = .next (deliverPhase p s)) := by
  cases hb : badRead p s
  · cases hr : p.rst
    · cases hl : s.live
      · simp [edge, hb, hr, hl]
      · cases ha : accepts p s
        · simp [edge, hb, hr, hl, ha]
        · simp [edge_accept_eq hb ha]
    · simp [edge, hb, hr]
  · simp [edge, hb]

/-- A step that answers a next state is one of four edges. -/
theorem step_next_cases {s t : State} (h : edge s.nextInput s.takeInput = .next t) :
    (s.nextInput.rst = true ∧ t = resetEdge s.takeInput) ∨
    (s.nextInput.rst = false ∧ s.live = false ∧ t = unspecifiedEdge s.takeInput) ∨
    (s.nextInput.rst = false ∧ s.live = true ∧ accepts s.nextInput s = true ∧
      t = (deliverPhase s.nextInput s.takeInput).push (respond s.nextInput.request)) ∨
    (s.nextInput.rst = false ∧ s.live = true ∧ accepts s.nextInput s = false ∧
      t = deliverPhase s.nextInput s.takeInput) := by
  obtain ⟨-, he⟩ | ⟨-, hr, he⟩ | ⟨-, hr, hl, he⟩ | ⟨-, hr, hl, ha, he⟩ | ⟨-, hr, hl, ha, he⟩ :=
    edge_cases s.nextInput s.takeInput <;> rw [he] at h
  · exact absurd h (by simp)
  all_goals
    injection h with h
    simp_all

end Sys2Proof.Machine
end

