-- ==== Sys2Proof/Laws/Decoder.lean ====
section
/-! SUPPORT. What the decoder answers, said once: its three outcomes, what they depend on, the decode
of an encoding, and that a window whose valid lanes begin with an encoded integer is answered as that
integer's wire format. -/

namespace Sys2Proof.Machine

/-! ### The three outcomes (R94, R123, R124) -/

section outcomes
variable {b : Lanes} {avail : BitVec 4}

theorem decodeResponse_cases (b : Lanes) (avail : BitVec 4) :
    effAvail avail = 0 ∨ (1 ≤ effAvail avail ∧ effAvail avail < (tagLen b.b0).toNat) ∨
      (tagLen b.b0).toNat ≤ effAvail avail := by
  omega

theorem decodeResponse_empty (h : effAvail avail = 0) :
    decodeResponse b avail = ⟨.empty, 0, 0, 0, Lanes.zero⟩ := by
  simp [decodeResponse, decodeStatus, h]

theorem decodeResponse_trunc (h1 : 1 ≤ effAvail avail) (h2 : effAvail avail < (tagLen b.b0).toNat) :
    decodeResponse b avail =
      ⟨.trunc, 0, (tagLen b.b0).code, countCode (effAvail avail), Lanes.zero⟩ := by
  simp [decodeResponse, decodeStatus, h2, show effAvail avail ≠ 0 by omega]

theorem decodeResponse_ok (h : (tagLen b.b0).toNat ≤ effAvail avail) :
    decodeResponse b avail =
      ⟨.ok, unpack b (tagLen b.b0), (tagLen b.b0).code, (tagLen b.b0).code, Lanes.zero⟩ := by
  have := (tagLen b.b0).toNat_pos
  simp [decodeResponse, decodeStatus, show effAvail avail ≠ 0 by omega,
    show ¬ effAvail avail < (tagLen b.b0).toNat by omega]

theorem decsResponse_empty (h : effAvail avail = 0) :
    decsResponse b avail = ⟨.empty, 0, 0, 0, Lanes.zero⟩ := by
  simp [decsResponse, decodeResponse_empty h]

theorem decsResponse_trunc (h1 : 1 ≤ effAvail avail) (h2 : effAvail avail < (tagLen b.b0).toNat) :
    decsResponse b avail =
      ⟨.trunc, 0, (tagLen b.b0).code, countCode (effAvail avail), Lanes.zero⟩ := by
  simp [decsResponse, decodeResponse_trunc h1 h2]

theorem decsResponse_ok (h : (tagLen b.b0).toNat ≤ effAvail avail) :
    decsResponse b avail = ⟨.ok, zigzagDecode (unpack b (tagLen b.b0)), (tagLen b.b0).code,
      (tagLen b.b0).code, Lanes.zero⟩ := by
  simp [decsResponse, decodeResponse_ok h]

end outcomes

/-! ### What they depend on -/

/-- A decode depends on the effective avail, on lane 0 if there is one, and on the lanes of a whole
encoding if it is there (R93). -/
theorem decodeResponse_congr {b b' : Lanes} {avail avail' : BitVec 4}
    (he : effAvail avail = effAvail avail') (h0 : 1 ≤ effAvail avail → b.b0 = b'.b0)
    (hl : (tagLen b.b0).toNat ≤ effAvail avail →
      ∀ i : Fin 9, i.val < (tagLen b.b0).toNat → b.lane i = b'.lane i) :
    decodeResponse b avail = decodeResponse b' avail' := by
  rcases decodeResponse_cases b avail with h | ⟨h1, h2⟩ | h
  · rw [decodeResponse_empty h, decodeResponse_empty (he ▸ h)]
  · have hb := h0 h1
    rw [decodeResponse_trunc h1 h2, decodeResponse_trunc (he ▸ h1) (by rw [← hb, ← he]; exact h2), hb, he]
  · have hb := h0 (le_trans (Len.toNat_pos _) h)
    have hu := unpack_congr (hl h)
    rw [decodeResponse_ok h, decodeResponse_ok (by rw [← hb, ← he]; exact h), hu, hb]

/-! ### The decode of an encoding -/

/-- The decode of the lanes of an encoding, whatever stands in the lanes after it (R98). -/
theorem decodeResponse_packAt {b : Lanes} {avail : BitVec 4} {n : Len} {u : Word} (h : u ≤ maxv n)
    (hn : n.toNat ≤ effAvail avail)
    (hb : ∀ i : Fin 9, i.val < n.toNat → b.lane i = (packAt n u).lane i) :
    decodeResponse b avail = ⟨.ok, u, n.code, n.code, Lanes.zero⟩ := by
  have h0 : b.b0 = (packAt n u).b0 := hb 0 n.toNat_pos
  have ht : tagLen b.b0 = n := by rw [h0, tagLen_packAt h]
  rw [decodeResponse_ok (by rw [ht]; exact hn), ht, unpack_congr hb, unpack_packAt h]

theorem decsResponse_packAt {b : Lanes} {avail : BitVec 4} {n : Len} {u : Word} (h : u ≤ maxv n)
    (hn : n.toNat ≤ effAvail avail)
    (hb : ∀ i : Fin 9, i.val < n.toNat → b.lane i = (packAt n u).lane i) :
    decsResponse b avail = ⟨.ok, zigzagDecode u, n.code, n.code, Lanes.zero⟩ := by
  simp [decsResponse, decodeResponse_packAt h hn hb]

theorem effAvail_code (n : Len) : effAvail n.code = n.toNat := by cases n <;> decide

/-- A wire format answers its payload and its length. -/
theorem wireResponse_eq {n : Len} {p : Word} (h : p ≤ maxv n) :
    wireResponse n p = ⟨.ok, p, n.code, n.code, Lanes.zero⟩ :=
  decodeResponse_packAt h (by rw [effAvail_code]) fun _ _ => rfl

/-- A decode whose valid lanes begin with an encoded integer answers as that integer's wire format. -/
theorem decodeResponse_of_decodeWire {b : Lanes} {avail : BitVec 4} {i : Instr} {rest : List Byte}
    (h : decodeWire (b.toList.take (effAvail avail)) = .ok (i, rest)) :
    decodeResponse b avail = responseOf i := by
  have he : effAvail avail ≤ 9 := Nat.min_le_right _ _
  cases hea : effAvail avail with
  | zero => rw [hea] at h; cases h
  | succ k =>
    rw [hea] at h he
    have hc : b.toList.take (k + 1) = b.b0 :: (b.toList.drop 1).take k := rfl
    have hlen : ((b.toList.drop 1).take k).length = k := by simp [Lanes.length_toList]; omega
    rw [hc, decodeWire_cons, hlen] at h
    split at h
    · cases h
    · rename_i hn
      injection h with h
      injection h with h _
      have hpos := (tagLen b.b0).toNat_pos
      have hp : ((b.toList.drop 1).take k).take ((tagLen b.b0).toNat - 1) =
          (b.toList.take (tagLen b.b0).toNat).drop 1 := by
        rw [List.take_take, Nat.min_eq_left (by omega), List.drop_take]
      rw [hp, wirePayload_eq_unpack rfl] at h
      subst h
      rw [responseOf_ofWire, decodeResponse_ok (by rw [hea]; omega), wireResponse_eq (unpack_le_maxv rfl)]

end Sys2Proof.Machine
end

