-- ==== Sys2Proof/Laws/PerInstr.lean ====
section
/-! SUPPORT. Statements made for every instruction, one lemma per constructor. -/

/-! ### MatchesTable: an encoded instruction matches its row of spec/opcode_table.json -/

namespace Sys2Proof.Laws.MatchesTable

/-- The row's mask and match, over the request word or over byte 0 (R58, R51). -/
def row : Instr → Nat × Nat
  | .encu _ => (0x700000000000000000000000000000000000, 0x0)
  | .encs _ => (0x700000000000000000000000000000000000, 0x100000000000000000000000000000000000)
  | .decu _ _ => (0x700000000000000000000000000000000000, 0x200000000000000000000000000000000000)
  | .decs _ _ => (0x700000000000000000000000000000000000, 0x300000000000000000000000000000000000)
  | .zze _ => (0x700000000000000000000000000000000000, 0x400000000000000000000000000000000000)
  | .zzd _ => (0x700000000000000000000000000000000000, 0x500000000000000000000000000000000000)
  | .lenu _ => (0x700000000000000000000000000000000000, 0x600000000000000000000000000000000000)
  | .taglen _ => (0x700000000000000000000000000000000000, 0x700000000000000000000000000000000000)
  | .varintL1 _ => (0x80, 0x00)
  | .varintL2 _ => (0xC0, 0x80)
  | .varintL3 _ => (0xE0, 0xC0)
  | .varintL4 _ => (0xF0, 0xE0)
  | .varintL5 _ => (0xF8, 0xF0)
  | .varintL6 _ => (0xFC, 0xF8)
  | .varintL7 _ => (0xFE, 0xFC)
  | .varintL8 _ => (0xFF, 0xFE)
  | .varintL9 _ => (0xFF, 0xFF)

/-- The encoding of a well-formed instruction, under its row's mask, is the row's match. -/
def Statement (i : Instr) : Prop :=
  i.wf = true →
    match encode i with
    | .command w => w.toNat &&& (row i).1 = (row i).2
    | .wire bytes => ∃ b0 cont, bytes = b0 :: cont ∧ b0.toNat &&& (row i).1 = (row i).2

/-- The `op` field is all of a request word that a command's mask looks at. -/
theorem and_opMask (q : Request) :
    (Machine.wordOfRequest q).toNat &&& 0x700000000000000000000000000000000000 = q.op.toNat * 2 ^ 140 := by
  have hm : 0x700000000000000000000000000000000000 = (2 ^ 3 - 1) * 2 ^ 140 := by decide
  have hw : (Machine.wordOfRequest q).toNat =
      2 ^ 140 * q.op.toNat + ((q.a.toNat * 2 ^ 72 + q.b.toBus.toNat) * 2 ^ 4 + q.avail.toNat) := by
    simp only [Machine.wordOfRequest, toNat_append_eq]
    omega
  have hlt : (q.a.toNat * 2 ^ 72 + q.b.toBus.toNat) * 2 ^ 4 + q.avail.toNat < 2 ^ 140 := by
    have := q.a.isLt; have := q.b.toBus.isLt; have := q.avail.isLt
    omega
  have hop := q.op.isLt
  apply Nat.eq_of_testBit_eq
  intro i
  rw [Nat.testBit_and, hw, hm, Nat.testBit_two_pow_mul_add _ hlt, Nat.testBit_mul_two_pow,
    Nat.testBit_mul_two_pow, Nat.testBit_two_pow_sub_one]
  by_cases hi : i < 140
  · simp [hi, show ¬ 140 ≤ i by omega]
  · simp only [hi, if_false, show 140 ≤ i by omega, decide_true, Bool.true_and]
    by_cases h3 : i - 140 < 3
    · simp [h3]
    · rw [Nat.testBit_lt_two_pow (lt_of_lt_of_le hop (Nat.pow_le_pow_right (by decide) (by omega)))]
      simp

theorem matches_commandWord {i : Instr} {op : BitVec 3} {a : Word} {b : Lanes} {avail : BitVec 4}
    (h : encode i = commandWord op a b avail) (hr : row i = (0x700000000000000000000000000000000000, op.toNat * 2 ^ 140)) :
    Statement i := by
  intro _
  rw [h, hr]
  exact and_opMask ⟨op, a, b, avail⟩

/-- Byte 0 of an encoding under the mask of its tag bits. -/
theorem and_tagMask : ∀ (n : Len) (t : Byte) (m : Nat), Machine.tagLen t = n →
    wireRows.find? (·.len == n) = some ⟨n, Machine.tagb n, BitVec.ofNat 8 m⟩ → m < 256 →
    t.toNat &&& m = (Machine.tagb n).toNat := by
  intro n t m ht hf hm
  have key : ∀ t : Byte, ∀ r ∈ wireRows, r.len = Machine.tagLen t →
      t.toNat &&& r.mask.toNat = (Machine.tagb r.len).toNat := by decide
  have hmem := List.mem_of_find?_eq_some hf
  have := key t _ hmem ht.symm
  simpa [Nat.mod_eq_of_lt hm] using this

theorem matches_wire {i : Instr} {n : Len} {p : Word} {m : Nat} (h : encode i = .wire (wireBytes n p))
    (hw : i.wf = payloadFits n p)
    (hf : wireRows.find? (·.len == n) = some ⟨n, Machine.tagb n, BitVec.ofNat 8 m⟩) (hm : m < 256)
    (hr : row i = (m, (Machine.tagb n).toNat)) : Statement i := by
  intro hwf
  rw [hw] at hwf
  have hle : p ≤ Machine.maxv n := of_decide_eq_true hwf
  rw [h, hr]
  refine ⟨_, _, rfl, ?_⟩
  apply and_tagMask n _ m _ hf hm
  have hcons : wireBytes n p = (Machine.packAt n p).b0 :: ((Machine.packAt n p).toList.take n.toNat).drop 1 := by
    rw [wireBytes_eq hle]; cases n <;> rfl
  have := (List.cons_eq_cons.mp hcons).1
  rw [this]
  exact Machine.tagLen_packAt hle

theorem encu (a : Word) : Statement (.encu a) := matches_commandWord rfl rfl
theorem encs (a : Word) : Statement (.encs a) := matches_commandWord rfl rfl
theorem decu (b : Lanes) (avail : BitVec 4) : Statement (.decu b avail) := matches_commandWord rfl rfl
theorem decs (b : Lanes) (avail : BitVec 4) : Statement (.decs b avail) := matches_commandWord rfl rfl
theorem zze (a : Word) : Statement (.zze a) := matches_commandWord rfl rfl
theorem zzd (a : Word) : Statement (.zzd a) := matches_commandWord rfl rfl
theorem lenu (a : Word) : Statement (.lenu a) := matches_commandWord rfl rfl
theorem taglen (t : Byte) : Statement (.taglen t) := matches_commandWord rfl rfl
theorem varintL1 (p : Word) : Statement (.varintL1 p) :=
  matches_wire (n := .l1) rfl rfl (m := 0x80) rfl (by decide) rfl
theorem varintL2 (p : Word) : Statement (.varintL2 p) :=
  matches_wire (n := .l2) rfl rfl (m := 0xC0) rfl (by decide) rfl
theorem varintL3 (p : Word) : Statement (.varintL3 p) :=
  matches_wire (n := .l3) rfl rfl (m := 0xE0) rfl (by decide) rfl
theorem varintL4 (p : Word) : Statement (.varintL4 p) :=
  matches_wire (n := .l4) rfl rfl (m := 0xF0) rfl (by decide) rfl
theorem varintL5 (p : Word) : Statement (.varintL5 p) :=
  matches_wire (n := .l5) rfl rfl (m := 0xF8) rfl (by decide) rfl
theorem varintL6 (p : Word) : Statement (.varintL6 p) :=
  matches_wire (n := .l6) rfl rfl (m := 0xFC) rfl (by decide) rfl
theorem varintL7 (p : Word) : Statement (.varintL7 p) :=
  matches_wire (n := .l7) rfl rfl (m := 0xFE) rfl (by decide) rfl
theorem varintL8 (p : Word) : Statement (.varintL8 p) :=
  matches_wire (n := .l8) rfl rfl (m := 0xFF) rfl (by decide) rfl
theorem varintL9 (p : Word) : Statement (.varintL9 p) :=
  matches_wire (n := .l9) rfl rfl (m := 0xFF) rfl (by decide) rfl

end Sys2Proof.Laws.MatchesTable
end

