-- ==== Sys2Proof/Laws/Run.lean ====
section
/-! SUPPORT. What one step does to the trace of responses and to a young entry, for the inductions over
runs. -/

namespace Sys2Proof.Machine

theorem runFor_succ (k : Nat) (s : State) :
    runFor (k + 1) s =
      match step s with
      | .next t => runFor k t
      | .fault r => .fault r
      | .refused r => .refused r := rfl

theorem badRead_of_not_reads {p : PortIn} (s : State) (h : p.hostReads = false) : badRead p s = false := by
  simp [badRead, h]

/-- The parameters are constant and each step takes one input off the list. -/
theorem step_params_inputs {s t : State} (h : step s = .next t) :
    t.params = s.params ∧ t.inputs = s.inputs.tail := by
  obtain ⟨-, rfl⟩ | ⟨-, -, rfl⟩ | ⟨-, -, -, rfl⟩ | ⟨-, -, -, rfl⟩ := step_next_cases h <;> simp

theorem noResetIn_succ {s : State} {k : Nat} (h : s.noResetIn (k + 1)) :
    s.nextInput.rst = false ∧ s.takeInput.noResetIn k := by
  unfold State.noResetIn State.nextInput State.takeInput at *
  cases hi : s.inputs with
  | nil => simp [PortIn.idle]
  | cons p ps => simpa [hi] using h

theorem noResetIn_step {s t : State} {k : Nat} (h : s.noResetIn (k + 1)) (hst : step s = .next t) :
    t.noResetIn k := by
  unfold State.noResetIn
  rw [(step_params_inputs hst).2]
  exact (noResetIn_succ h).2

/-- The delivery phase moves a response from the queue to the host and loses none. -/
theorem responseTrace_deliverPhase (p : PortIn) (s : State) :
    (deliverPhase p s).responseTrace = s.responseTrace := by
  obtain ⟨-, e, rest, hp, -, he⟩ | ⟨-, he⟩ := deliverPhase_cases p s <;> rw [he]
  · simp [State.responseTrace, hp, Function.comp_def]
  · simp [State.responseTrace, Function.comp_def]

/-- An edge without a reset appends the accepted request's response to the trace, and nothing else. -/
theorem responseTrace_step {s t : State} (hl : s.live = true) (hr : s.nextInput.rst = false)
    (hst : step s = .next t) :
    t.live = true ∧ t.responseTrace = s.responseTrace ++ s.acceptedNext.map respond := by
  have hph : (deliverPhase s.nextInput s.takeInput).responseTrace = s.responseTrace :=
    responseTrace_deliverPhase s.nextInput s.takeInput
  obtain ⟨hr', rfl⟩ | ⟨-, hl', rfl⟩ | ⟨-, -, ha, rfl⟩ | ⟨-, -, ha, rfl⟩ := step_next_cases hst
  · rw [hr] at hr'; cases hr'
  · rw [hl] at hl'; cases hl'
  · refine ⟨by simp [hl], ?_⟩
    rw [← hph]
    simp [State.responseTrace, State.acceptedNext, ha]
  · refine ⟨by simp [hl], ?_⟩
    rw [hph]
    simp [State.acceptedNext, ha]

/-- An entry younger than `LATENCY` stays queued over an edge without a reset, one edge older. -/
theorem young_entry_stays {s t : State} {e : Pending} (hl : s.live = true) (hr : s.nextInput.rst = false)
    (hst : step s = .next t) (he : e ∈ s.pend) (ha : e.age < s.params.latency) :
    ⟨e.rsp, e.age + 1⟩ ∈ t.pend := by
  have hph : ⟨e.rsp, e.age + 1⟩ ∈ (deliverPhase s.nextInput s.takeInput).pend := by
    obtain ⟨-, e', rest, hp, ha2, h⟩ | ⟨-, h⟩ := deliverPhase_cases s.nextInput s.takeInput <;> rw [h]
    · simp only [takeInput_pend, takeInput_params] at hp ha2
      rw [hp] at he
      rcases List.mem_cons.mp he with rfl | he
      · omega
      · exact List.mem_map.mpr ⟨e, he, rfl⟩
    · exact List.mem_map.mpr ⟨e, he, rfl⟩
  obtain ⟨hr', rfl⟩ | ⟨-, hl', rfl⟩ | ⟨-, -, -, rfl⟩ | ⟨-, -, -, rfl⟩ := step_next_cases hst
  · rw [hr] at hr'; cases hr'
  · rw [hl] at hl'; cases hl'
  · exact List.mem_append_left _ hph
  · exact hph

end Sys2Proof.Machine
end

