-- ==== Sys2Proof/Laws/Stream.lean ====
section
/-! SUPPORT. The host's stream: what an encode commits, what the window of a cursor holds, and what a
read takes off it. -/

namespace Sys2Proof.Machine

theorem effAvail_availOf (cursor : List Byte) : effAvail (availOf cursor) = min cursor.length 9 := by
  simp only [effAvail, availOf, countCode, BitVec.toNat_ofNat]
  omega

/-- The window of a cursor begins with its next bytes (R45). -/
theorem take_windowOf (cursor : List Byte) {k : Nat} (hk : k ≤ min cursor.length 9) :
    (windowOf cursor).toList.take k = cursor.take k := by
  have hl : (cursor.take 9).length ≤ 9 := by simp
  rw [windowOf, Lanes.toList_ofList _ hl, List.take_append_of_le_length (by simp; omega), List.take_take,
    Nat.min_eq_left (by omega)]

/-- An encode commits exactly the bytes of the minimal encoding (R45, R71). -/
theorem committed_encodedResponse (u : Word) :
    committed (encodedResponse u) = wireBytes (lenOf u) u := by
  rw [committed, wireBytes_eq (le_maxv_lenOf u)]
  simp only [encodedResponse, Len.toNat_code, pack]

/-- The window of a stream that begins with an encoding holds that encoding's lanes. -/
theorem windowOf_lane {n : Len} {u : Word} (h : u ≤ maxv n) (rest : List Byte) (i : Fin 9)
    (hi : i.val < n.toNat) : (windowOf (wireBytes n u ++ rest)).lane i = (packAt n u).lane i := by
  have hlen := length_wireBytes n u
  have hn := n.toNat_le
  have ht : (windowOf (wireBytes n u ++ rest)).toList.take n.toNat = (packAt n u).toList.take n.toNat := by
    rw [take_windowOf _ (by simp [hlen]; omega), ← wireBytes_eq h, ← hlen, List.take_left]
  have := congrArg (·[i.val]?) ht
  simp only [List.getElem?_take, hi, if_true] at this
  rw [← Lanes.getElem_toList, ← Lanes.getElem_toList]
  rwa [List.getElem?_eq_getElem, List.getElem?_eq_getElem, Option.some_inj] at this

/-- A window is wide enough for the encoding its stream begins with. -/
theorem le_effAvail_wireBytes (n : Len) (u : Word) (rest : List Byte) :
    n.toNat ≤ effAvail (availOf (wireBytes n u ++ rest)) := by
  have := n.toNat_le
  rw [effAvail_availOf, List.length_append, length_wireBytes]
  omega

/-- A read takes one encoded integer off the stream and returns its payload (R45, R94). -/
theorem readUvarint_wireBytes {n : Len} {u : Word} (h : u ≤ maxv n) (rest : List Byte) :
    readUvarint (wireBytes n u ++ rest) = (some u, rest) := by
  have hd := decodeResponse_packAt (b := windowOf (wireBytes n u ++ rest))
    (avail := availOf (wireBytes n u ++ rest)) h (le_effAvail_wireBytes n u rest)
    fun i hi => windowOf_lane h rest i hi
  simp only [readUvarint, decuResponse, hd, readResult, advance, Len.toNat_code, if_true]
  rw [List.drop_append_of_le_length (by rw [length_wireBytes]), List.drop_of_length_le (by rw [length_wireBytes]),
    List.nil_append]

/-- The signed read of an unsigned encoding returns the zigzag-decoded payload (R95). -/
theorem readVarint_wireBytes {n : Len} {u : Word} (h : u ≤ maxv n) (rest : List Byte) :
    readVarint (wireBytes n u ++ rest) = (some (zigzagDecode u), rest) := by
  have hd := decsResponse_packAt (b := windowOf (wireBytes n u ++ rest))
    (avail := availOf (wireBytes n u ++ rest)) h (le_effAvail_wireBytes n u rest)
    fun i hi => windowOf_lane h rest i hi
  simp only [readVarint, hd, readResult, advance, Len.toNat_code, if_true]
  rw [List.drop_append_of_le_length (by rw [length_wireBytes]), List.drop_of_length_le (by rw [length_wireBytes]),
    List.nil_append]

theorem writeUvarint_eq (sink : List Byte) (v : Word) :
    writeUvarint sink v = sink ++ wireBytes (lenOf v) v := by
  rw [writeUvarint, encuResponse, committed_encodedResponse]

/-- Writing a list appends to what the sink holds. -/
theorem writeUvarints_append (vs : List Word) (sink : List Byte) :
    writeUvarints sink vs = sink ++ writeUvarints [] vs := by
  induction vs generalizing sink with
  | nil => simp [writeUvarints]
  | cons v vs ih =>
    simp only [writeUvarints]
    rw [ih, ih (writeUvarint [] v), writeUvarint_eq, writeUvarint_eq]
    simp

end Sys2Proof.Machine
end

