-- ==== Sys2Proof/Tests/Slice0.lean ====
section
/-! SUPPORT. Tests and witnesses. Expected responses, words and byte strings are those of
spec/95_test_vectors.md (tables L1 and L2, programs L3) or worked from the rule named; each test is one
decode, one instruction or one edge on a small state. -/

namespace Sys2Proof.Tests

open Sys2Proof Sys2Proof.Machine

/-! ## Helpers -/

/-- After a reset, with `DEPTH` 2 and `LATENCY` 1, empty. -/
def room : State := State.resetWith ⟨1, 0⟩

/-- `DEPTH` 2 and `LATENCY` 3, empty. -/
def slow : State := State.resetWith ⟨1, 2⟩

/-- Two responses queued and the older one ready: full. -/
def crowded : State := { room with pend := [⟨encuResponse 0x7F, 2⟩, ⟨zzeResponse 1, 1⟩] }

/-- Before the first reset. -/
def dark : State := State.powerOn ⟨1, 0⟩ 0

/-- The state with the inputs of the coming edges. -/
def driven (ps : List PortIn) (s : State) : State := { s with inputs := ps }

/-- An edge with `rst` high. -/
def rstEdge : PortIn := { PortIn.idle with rst := true }

/-- An edge at which the host takes a response. -/
def takeEdge : PortIn := { PortIn.idle with rspReady := true }

/-- An edge at which the host reads the data fields. -/
def readEdge : PortIn := { PortIn.idle with hostReads := true }

/-- An edge that presents `ENCU 0x3FF`. -/
def encuEdge : PortIn := PortIn.present ⟨0, 0x3FF, Lanes.zero, 0⟩

/-- An edge that presents `DECU [81 2C AB], 3`. -/
def decuEdge : PortIn := PortIn.present ⟨2, 0, Lanes.ofList [0x81, 0x2C, 0xAB], 3⟩

/-- The responses queued after an outcome, newest last. -/
def queued (o : Host.Outcome State Fault Refusal) : Option (List Response) :=
  match o with
  | .next t => some (t.pend.map (·.rsp))
  | .fault _ => none
  | .refused _ => none

/-- The responses handed to the host. -/
def handed (o : Host.Outcome State Fault Refusal) : Option (List Response) :=
  match o with
  | .next t => some t.delivered
  | .fault _ => none
  | .refused _ => none

/-- The fault of an outcome. -/
def faultOf (o : Host.Outcome State Fault Refusal) : Option Fault :=
  match o with
  | .next _ => none
  | .fault f => some f
  | .refused _ => none

/-- What decoding answers, if it answers an instruction. -/
def decoded (e : Encoded) : Option Instr :=
  match decode e with
  | .ok i => some i
  | .error _ => none

/-- Why decoding refuses, if it does. -/
def refusedAs (e : Encoded) : Option DecodeError :=
  match decode e with
  | .ok _ => none
  | .error d => some d

/-! ## Well-formedness: a payload above the capacity of its length is refused (R51) -/

theorem test_wf_varintL1 : (Instr.varintL1 0x7F).wf = true ∧ (Instr.varintL1 0x80).wf = false := by decide
theorem test_wf_varintL2 : (Instr.varintL2 0x3FFF).wf = true ∧ (Instr.varintL2 0x4000).wf = false := by decide
theorem test_wf_varintL3 : (Instr.varintL3 0x1FFFFF).wf = true ∧ (Instr.varintL3 0x200000).wf = false := by decide
theorem test_wf_varintL4 : (Instr.varintL4 0xFFFFFFF).wf = true ∧ (Instr.varintL4 0x10000000).wf = false := by decide
theorem test_wf_varintL5 : (Instr.varintL5 0x7FFFFFFFF).wf = true ∧ (Instr.varintL5 0x800000000).wf = false := by decide
theorem test_wf_varintL6 : (Instr.varintL6 0x3FFFFFFFFFF).wf = true ∧ (Instr.varintL6 0x40000000000).wf = false := by decide
theorem test_wf_varintL7 : (Instr.varintL7 0x1FFFFFFFFFFFF).wf = true ∧ (Instr.varintL7 0x2000000000000).wf = false := by decide
theorem test_wf_varintL8 : (Instr.varintL8 0xFFFFFFFFFFFFFF).wf = true ∧ (Instr.varintL8 0x100000000000000).wf = false := by decide

/-! ## Decoding -/

/-! Request words of the table "Request words". -/

theorem test_decode_encu :
    decoded (.command 0x000000000000003FF0000000000000000000) = some (.encu 0x3FF) := by decide
theorem test_decode_encs :
    decoded (.command 0x1FFFFFFFFFFFFFFBF0000000000000000000) = some (.encs (-65)) := by decide
theorem test_decode_decu :
    decoded (.command 0x2000000000000000083FF000000000000002) = some (.decu ⟨0x83, 0xFF, 0, 0, 0, 0, 0, 0, 0⟩ 2) := by decide
theorem test_decode_decu_nine_lanes :
    decoded (.command 0x20000000000000000FFFFFFFFFFFFFFFFFF9) = some (.decu ⟨0xFF, 0xFF, 0xFF, 0xFF, 0xFF, 0xFF, 0xFF, 0xFF, 0xFF⟩ 9) := by decide
theorem test_decode_decs :
    decoded (.command 0x300000000000000008081000000000000002) = some (.decs ⟨0x80, 0x81, 0, 0, 0, 0, 0, 0, 0⟩ 2) := by decide
theorem test_decode_zze :
    decoded (.command 0x4FFFFFFFFFFFFFFFE0000000000000000000) = some (.zze (-2)) := by decide
theorem test_decode_zzd :
    decoded (.command 0x5000000000000007F0000000000000000000) = some (.zzd 0x7F) := by decide
theorem test_decode_lenu :
    decoded (.command 0x600000000000040000000000000000000000) = some (.lenu 0x4000) := by decide
theorem test_decode_taglen :
    decoded (.command 0x70000000000000000C500000000000000000) = some (.taglen 0xC5) := by decide

/-! Byte strings of table ENCU. The value of each is in its row. -/

theorem test_decode_varintL1 :
    decoded (.wire [0x7F]) = some (.varintL1 0x7F) := by decide
theorem test_decode_varintL2 :
    decoded (.wire [0x81, 0x2C]) = some (.varintL2 0x12C) := by decide
theorem test_decode_varintL3 :
    decoded (.wire [0xCA, 0xBC, 0xDE]) = some (.varintL3 0xABCDE) := by decide
theorem test_decode_varintL4 :
    decoded (.wire [0xE0, 0x20, 0x00, 0x00]) = some (.varintL4 0x200000) := by decide
theorem test_decode_varintL5 :
    decoded (.wire [0xF7, 0xFF, 0xFF, 0xFF, 0xFF]) = some (.varintL5 0x7FFFFFFFF) := by decide
theorem test_decode_varintL6 :
    decoded (.wire [0xF8, 0x08, 0x00, 0x00, 0x00, 0x00]) = some (.varintL6 0x800000000) := by decide
theorem test_decode_varintL7 :
    decoded (.wire [0xFD, 0xFF, 0xFF, 0xFF, 0xFF, 0xFF, 0xFF]) = some (.varintL7 0x1FFFFFFFFFFFF) := by decide
theorem test_decode_varintL8 :
    decoded (.wire [0xFE, 0x02, 0x00, 0x00, 0x00, 0x00, 0x00, 0x00]) = some (.varintL8 0x2000000000000) := by decide
theorem test_decode_varintL9 :
    decoded (.wire [0xFF, 0x12, 0x34, 0x56, 0x78, 0x9A, 0xBC, 0xDE, 0xF0]) = some (.varintL9 0x123456789ABCDEF0) := by decide

/-! Refusals by name: no byte, a byte string shorter than its tag declares, bytes left over (R50, R51). -/

theorem test_decode_no_byte : refusedAs (.wire []) = some .noByte := by decide
theorem test_decode_too_short : refusedAs (.wire [0xC0, 0x40]) = some (.tooShort .l3 2) := by decide
theorem test_decode_trailing : refusedAs (.wire [0x7F, 0xAA]) = some (.trailing [0xAA]) := by decide

/-- The encoder writes the words of the spec's tables. -/
theorem test_encode_words :
    encode (.taglen 0xC5) = .command 0x70000000000000000C500000000000000000 ∧
    encode (.decu ⟨0x83, 0xFF, 0, 0, 0, 0, 0, 0, 0⟩ 2) = .command 0x2000000000000000083FF000000000000002 ∧
    encode (.varintL3 0xABCDE) = .wire [0xCA, 0xBC, 0xDE] := by decide

/-! ## Instructions -/

theorem test_encu_top :
    queued (exec (.encu 0xFFFFFFFFFFFFFF) room) = some [⟨.ok, 0xFFFFFFFFFFFFFF, 8, 8, ⟨0xFE, 0xFF, 0xFF, 0xFF, 0xFF, 0xFF, 0xFF, 0xFF, 0⟩⟩] := by decide
theorem test_encu_nine :
    queued (exec (.encu 0x100000000000000) room) = some [⟨.ok, 0x100000000000000, 9, 9, ⟨0xFF, 0x01, 0, 0, 0, 0, 0, 0, 0⟩⟩] := by decide
theorem test_encs_negative :
    queued (exec (.encs (-300)) room) = some [⟨.ok, 0x257, 2, 2, ⟨0x82, 0x57, 0, 0, 0, 0, 0, 0, 0⟩⟩] := by decide
theorem test_encs_min :
    queued (exec (.encs 0x8000000000000000) room) = some [⟨.ok, 0xFFFFFFFFFFFFFFFF, 9, 9, ⟨0xFF, 0xFF, 0xFF, 0xFF, 0xFF, 0xFF, 0xFF, 0xFF, 0xFF⟩⟩] := by decide
theorem test_decu_overlong :
    queued (exec (.decu ⟨0xC0, 0, 0x05, 0, 0, 0, 0, 0, 0⟩ 3) room) = some [⟨.ok, 0x5, 3, 3, ⟨0, 0, 0, 0, 0, 0, 0, 0, 0⟩⟩] := by decide
theorem test_decu_truncated :
    queued (exec (.decu ⟨0xFF, 0xFF, 0xFF, 0xFF, 0xFF, 0xFF, 0xFF, 0xFF, 0⟩ 8) room) = some [⟨.trunc, 0x0, 9, 8, ⟨0, 0, 0, 0, 0, 0, 0, 0, 0⟩⟩] := by decide
theorem test_decs_negative :
    queued (exec (.decs ⟨0x82, 0x57, 0, 0, 0, 0, 0, 0, 0⟩ 2) room) = some [⟨.ok, 0xFFFFFFFFFFFFFED4, 2, 2, ⟨0, 0, 0, 0, 0, 0, 0, 0, 0⟩⟩] := by decide
theorem test_decs_empty :
    queued (exec (.decs ⟨0x01, 0, 0, 0, 0, 0, 0, 0, 0⟩ 0) room) = some [⟨.empty, 0x0, 0, 0, ⟨0, 0, 0, 0, 0, 0, 0, 0, 0⟩⟩] := by decide
theorem test_zze_quarter :
    queued (exec (.zze 4611686018427387904) room) = some [⟨.ok, 0x8000000000000000, 0, 0, ⟨0, 0, 0, 0, 0, 0, 0, 0, 0⟩⟩] := by decide
theorem test_zze_minus_64 :
    queued (exec (.zze (-64)) room) = some [⟨.ok, 0x7F, 0, 0, ⟨0, 0, 0, 0, 0, 0, 0, 0, 0⟩⟩] := by decide
theorem test_zzd_odd :
    queued (exec (.zzd 0x7FFFFFFFFFFFFFFF) room) = some [⟨.ok, 0xC000000000000000, 0, 0, ⟨0, 0, 0, 0, 0, 0, 0, 0, 0⟩⟩] := by decide
theorem test_zzd_even :
    queued (exec (.zzd 0x80) room) = some [⟨.ok, 0x40, 0, 0, ⟨0, 0, 0, 0, 0, 0, 0, 0, 0⟩⟩] := by decide
theorem test_lenu_capacity :
    queued (exec (.lenu 0x7FFFFFFFF) room) = some [⟨.ok, 0x7FFFFFFFF, 5, 0, ⟨0xF0, 0, 0, 0, 0, 0, 0, 0, 0⟩⟩] := by decide
theorem test_lenu_nine :
    queued (exec (.lenu 0x100000000000000) room) = some [⟨.ok, 0xFFFFFFFFFFFFFFFF, 9, 0, ⟨0xFF, 0, 0, 0, 0, 0, 0, 0, 0⟩⟩] := by decide
theorem test_taglen_bf :
    queued (exec (.taglen 0xBF) room) = some [⟨.ok, 0x3FFF, 2, 0, ⟨0x80, 0, 0, 0, 0, 0, 0, 0, 0⟩⟩] := by decide
theorem test_taglen_fe :
    queued (exec (.taglen 0xFE) room) = some [⟨.ok, 0xFFFFFFFFFFFFFF, 8, 0, ⟨0xFE, 0, 0, 0, 0, 0, 0, 0, 0⟩⟩] := by decide

/-! A wire format answers as the `DECU` rows of its bytes. -/

theorem test_varintL1 :
    queued (exec (.varintL1 0x7F) room) = some [⟨.ok, 0x7F, 1, 1, ⟨0, 0, 0, 0, 0, 0, 0, 0, 0⟩⟩] := by decide
theorem test_varintL2 :
    queued (exec (.varintL2 0x12C) room) = some [⟨.ok, 0x12C, 2, 2, ⟨0, 0, 0, 0, 0, 0, 0, 0, 0⟩⟩] := by decide
theorem test_varintL3 :
    queued (exec (.varintL3 0xABCDE) room) = some [⟨.ok, 0xABCDE, 3, 3, ⟨0, 0, 0, 0, 0, 0, 0, 0, 0⟩⟩] := by decide
theorem test_varintL4 :
    queued (exec (.varintL4 0x200000) room) = some [⟨.ok, 0x200000, 4, 4, ⟨0, 0, 0, 0, 0, 0, 0, 0, 0⟩⟩] := by decide
theorem test_varintL5 :
    queued (exec (.varintL5 0x7FFFFFFFF) room) = some [⟨.ok, 0x7FFFFFFFF, 5, 5, ⟨0, 0, 0, 0, 0, 0, 0, 0, 0⟩⟩] := by decide
theorem test_varintL6 :
    queued (exec (.varintL6 0x800000000) room) = some [⟨.ok, 0x800000000, 6, 6, ⟨0, 0, 0, 0, 0, 0, 0, 0, 0⟩⟩] := by decide
theorem test_varintL7 :
    queued (exec (.varintL7 0x1FFFFFFFFFFFF) room) = some [⟨.ok, 0x1FFFFFFFFFFFF, 7, 7, ⟨0, 0, 0, 0, 0, 0, 0, 0, 0⟩⟩] := by decide
theorem test_varintL8 :
    queued (exec (.varintL8 0x2000000000000) room) = some [⟨.ok, 0x2000000000000, 8, 8, ⟨0, 0, 0, 0, 0, 0, 0, 0, 0⟩⟩] := by decide
theorem test_varintL9 :
    queued (exec (.varintL9 0x123456789ABCDEF0) room) = some [⟨.ok, 0x123456789ABCDEF0, 9, 9, ⟨0, 0, 0, 0, 0, 0, 0, 0, 0⟩⟩] := by decide

/-! ## Edges -/

/-- The first instruction after reset, whatever `DEPTH` and `LATENCY` are: a request word. -/
theorem test_first_step_command :
    queued (step (State.reset.withFetchWord 144 0x000000000000003FF0000000000000000000)) =
      some [⟨.ok, 0x3FF, 2, 2, ⟨0x83, 0xFF, 0, 0, 0, 0, 0, 0, 0⟩⟩] := by decide

/-- The same for a wire format: `81 2C`, byte 0 in the low bits. -/
theorem test_first_step_wire :
    queued (step (State.reset.withFetchWord 16 0x2C81)) = some [⟨.ok, 0x12C, 2, 2, Lanes.zero⟩] := by decide

/-- R36: with `DEPTH` 2 a full queue takes no request even at an edge that delivers. -/
theorem test_full_queue_takes_no_request :
    queued (step (driven [{ encuEdge with rspReady := true }] crowded)) = some [zzeResponse 1] ∧
    handed (step (driven [{ encuEdge with rspReady := true }] crowded)) = some [encuResponse 0x7F] := by decide

/-- R36: with an entry free, the head leaves and the new response comes after those that stay. -/
theorem test_deliver_and_accept_at_one_edge :
    queued (step (driven [{ encuEdge with rspReady := true }] { crowded with pend := [⟨zzeResponse 1, 1⟩] })) =
      some [encuResponse 0x3FF] := by decide

/-- R146: with `LATENCY` 3, an entry is ready only at the third edge after its acceptance. -/
theorem test_latency_counts_edges :
    ({ slow with pend := [⟨zzeResponse 1, 2⟩] }).rspValid false = false ∧
    ({ slow with pend := [⟨zzeResponse 1, 3⟩] }).rspValid false = true := by decide

/-- R140: a reset edge discards every response, and delivers none. -/
theorem test_reset_discards :
    queued (step (driven [{ encuEdge with rst := true, rspReady := true }] crowded)) = some [] ∧
    handed (step (driven [{ encuEdge with rst := true, rspReady := true }] crowded)) = some [] := by decide

/-- R34: reading the data fields of an empty queue is the host's fault; of a full one it is none. -/
theorem test_read_of_no_value :
    faultOf (step (driven [readEdge] room)) = some .rspReadWhileInvalid ∧
    faultOf (step (driven [readEdge] crowded)) = none := by decide

/-- R42: lane 0 is the top byte of the `rsp_bytes` bus. -/
theorem test_bus_order :
    (Response.pins (encuResponse 0x3FF)).bytes = 0x83FF00000000000000 := by decide

/-- Program P1: the stream of the source's end-to-end example. -/
theorem test_program_p1_stream :
    writeUvarints [] [0x7F, 0x3FF, 0x1FFFFF] = [0x7F, 0x83, 0xFF, 0xDF, 0xFF, 0xFF] ∧
    readUvarints 4 [0x7F, 0x83, 0xFF, 0xDF, 0xFF, 0xFF] =
      ([some 0x7F, some 0x3FF, some 0x1FFFFF, none], []) := by decide

/-- R61: lines of the table of request words, and the lanes a response lists. -/
theorem test_notation :
    (assemble (.encs (.decimal (-65)))).map wordOfRequest = some 0x1FFFFFFFFFFFFFFBF0000000000000000000 ∧
    (assemble (.decu [0x83, 0xFF] 2)).map wordOfRequest = some 0x2000000000000000083FF000000000000002 ∧
    listedLanes 6 (lenuResponse 0x4000) = [0xC0, 0x00, 0x00] ∧ listedLanes 4 (zzeResponse 1) = [] := by decide

/-! ## Witnesses: for each statement with hypotheses, a state and operands that meet them all -/

/-- DecodeEncodeRoundTrip. -/
theorem witness_DecodeEncodeRoundTrip : (Instr.varintL8 0xFFFFFFFFFFFFFF).wf = true := by decide

/-- WireDecodeTakesOneIntegerOffAStream, at both ends. -/
theorem witness_WireDecodeTakesOneIntegerOffAStream :
    (0x7F : Word) ≤ maxv .l1 ∧ (0xFFFFFFFFFFFFFFFF : Word) ≤ maxv .l9 := by decide

/-- WireDecodeIsEncodingOfWhatItReads. -/
theorem witness_WireDecodeIsEncodingOfWhatItReads :
    decodeWire [0x81, 0x2C, 0xAB] = .ok (.varintL2 0x12C, [0xAB]) := rfl

/-- RequestWordFieldsAndOps: one word for each op. -/
theorem witness_RequestWordFieldsAndOps :
    (0x000000000000003FF0000000000000000000 : BitVec 143).extractLsb' 140 3 = 0 ∧
    (0x1FFFFFFFFFFFFFFBF0000000000000000000 : BitVec 143).extractLsb' 140 3 = 1 ∧
    (0x2000000000000000083FF000000000000002 : BitVec 143).extractLsb' 140 3 = 2 ∧
    (0x300000000000000008081000000000000002 : BitVec 143).extractLsb' 140 3 = 3 ∧
    (0x4FFFFFFFFFFFFFFFE0000000000000000000 : BitVec 143).extractLsb' 140 3 = 4 ∧
    (0x5000000000000007F0000000000000000000 : BitVec 143).extractLsb' 140 3 = 5 ∧
    (0x600000000000040000000000000000000000 : BitVec 143).extractLsb' 140 3 = 6 ∧
    (0x70000000000000000C500000000000000000 : BitVec 143).extractLsb' 140 3 = 7 := by decide

/-- EveryByteZeroSelectsOneFormat: nine bytes that begin with `0xFF`, and one byte `0x7F`. -/
theorem witness_EveryByteZeroSelectsOneFormat :
    ([1, 2, 3, 4, 5, 6, 7, 8] : List Byte).length + 1 = clo8 0xFF + 1 ∧
    ([] : List Byte).length + 1 = clo8 0x7F + 1 := by decide

/-- NotationLosesNothing: `DECU [80], 15` with all nine lanes written. -/
theorem witness_NotationLosesNothing :
    lineOf (.decu ⟨0x80, 0, 0, 0, 0, 0, 0, 0, 0⟩ 15) = some (.decu [0x80, 0, 0, 0, 0, 0, 0, 0, 0] 15) := by decide

/-- PackLaysOutTagAndValueBigEndian: each clause. -/
theorem witness_PackLaysOutTagAndValueBigEndian :
    lenOf 0xFFFFFFFFFFFFFFFF = .l9 ∧ lenOf 0x80 ≠ .l9 ∧ lenOf 0x7F = .l1 ∧ (lenOf 0x80).toNat ≤ 2 := by decide

/-- EncoderLaws: the premise of (b) and that of injectivity. -/
theorem witness_EncoderLaws :
    Len.l1.toNat + 1 = (lenOf 0x80).toNat ∧
    (pack 0x80).toList.take (lenOf 0x80).toNat = (pack 0x80).toList.take (lenOf 0x80).toNat := by decide

/-- The statements of a result (`EncuAnswersTheMinimalEncoding`, `EncsEncodesTheZigzagPattern`,
`LenuAnswersTheLengthsTableEntries`, `TaglenAnswersTheDeclaredLength`, `ZzeAnswersTheZigzagPattern`,
`ZzdAnswersTheSignedValue`): an entry is free. -/
theorem witness_a_free_entry : room.pend.length < room.params.depth := by decide

/-- Their clauses over values of at least 2^56. -/
theorem witness_nine_byte_values : 2 ^ 56 ≤ (0x100000000000000 : Word).toNat := by decide

/-- LenOfIsTheSmallestLengthThatFits: a length that fits. -/
theorem witness_LenOfIsTheSmallestLengthThatFits : (0x3FFF : Word) ≤ maxv .l2 := by decide

/-- The clauses of these and of LengthTablesHoldTheirFormulas over a length below nine, and over a
one-byte tag. -/
theorem witness_bounds : Len.l8 ≠ Len.l9 ∧ (0x7F : Byte).toNat ≤ 0x7F := by decide

/-- UnpackReadsThePayloadBits. -/
theorem witness_UnpackReadsThePayloadBits :
    tagLen (0x7F : Byte) = .l1 ∧ tagLen (0xFE : Byte) = .l8 ∧ tagLen (0xFF : Byte) = .l9 := by decide

/-- DecuReportsEmptyTruncOrTheValue and DecsReportsTheZigzagDecodedValue: the three clauses, at the
boundaries of each. -/
theorem witness_decode_clauses :
    effAvail 0 = 0 ∧
    (1 ≤ effAvail 1 ∧ effAvail 1 < (tagLen 0x80).toNat) ∧ (1 ≤ effAvail 8 ∧ effAvail 8 < (tagLen 0xFF).toNat) ∧
    (tagLen 0x7F).toNat ≤ effAvail 1 ∧ (tagLen 0xFF).toNat ≤ effAvail 15 ∧
    room.pend.length < room.params.depth := by decide

/-- NonCanonicalInputDecodesToItsValue: `80 05`. -/
theorem witness_NonCanonicalInputDecodesToItsValue :
    room.pend.length < room.params.depth ∧ (tagLen 0x80).toNat ≤ effAvail 2 ∧
    (lenOf (unpack ⟨0x80, 0x05, 0, 0, 0, 0, 0, 0, 0⟩ (tagLen 0x80))).toNat < (tagLen 0x80).toNat := by decide

/-- EncodeThenDecodeRoundTrip: `u = 0x3FF` and `v = -65`, with other bytes after them. -/
theorem witness_EncodeThenDecodeRoundTrip :
    room.pend.length < room.params.depth ∧
    (lenOf 0x3FF).toNat ≤ min (2 : BitVec 4).toNat 9 ∧
    (∀ i : Fin 9, i.val < (lenOf 0x3FF).toNat →
      (⟨0x83, 0xFF, 0xAA, 0, 0, 0, 0, 0, 0xBB⟩ : Lanes).lane i = (encuResponse 0x3FF).bytes.lane i) ∧
    (encsResponse (-65)).len.toNat ≤ min (15 : BitVec 4).toNat 9 ∧
    (∀ i : Fin 9, i.val < (encsResponse (-65)).len.toNat →
      (⟨0x80, 0x81, 0xAA, 0, 0, 0, 0, 0, 0xBB⟩ : Lanes).lane i = (encsResponse (-65)).bytes.lane i) := by decide

/-- TruncatedEncodingGivesNoValue: a one-byte and a nine-byte value. -/
theorem witness_TruncatedEncodingGivesNoValue :
    room.pend.length < room.params.depth ∧ lenOf 0x7F = .l1 ∧ lenOf 0x100000000000000 ≠ .l1 := by decide

/-- ReadLeavesTheCursorWhereTheSourceSays: a read of a value, one of a truncated stream, one at the end. -/
theorem witness_ReadLeavesTheCursorWhereTheSourceSays :
    readUvarint [0x81, 0x2C, 0xAB] = (some 0x12C, [0xAB]) ∧ (readUvarint [0x80]).1 = none ∧
    (readUvarint []).1 = none := by decide

/-- WindowDutyMakesTheResponseDescribeTheStream: two bytes remain, and the lanes above them are not 0. -/
theorem witness_WindowDutyMakesTheResponseDescribeTheStream :
    WindowDuty [0x81, 0x2C] ⟨0x81, 0x2C, 0xAA, 0, 0, 0, 0, 0, 0xBB⟩ 2 := by
  unfold WindowDuty; decide

/-- ZigzagIsABijection and ZigzagClosedForms: the bounds on the length and the bit. -/
theorem witness_zigzag_bounds : Len.l1 ≠ Len.l9 ∧ (62 : Nat) < 63 := by decide

/-- WireFormatsAnswerTheirPayload: each capacity. -/
theorem witness_WireFormatsAnswerTheirPayload :
    room.pend.length < room.params.depth ∧ (0x7F : Word) ≤ 0x7F ∧ (0x3FFF : Word) ≤ 0x3FFF ∧
    (0x1FFFFF : Word) ≤ 0x1FFFFF ∧ (0xFFFFFFF : Word) ≤ 0xFFFFFFF ∧ (0x7FFFFFFFF : Word) ≤ 0x7FFFFFFFF ∧
    (0x3FFFFFFFFFF : Word) ≤ 0x3FFFFFFFFFF ∧ (0x1FFFFFFFFFFFF : Word) ≤ 0x1FFFFFFFFFFFF ∧
    (0xFFFFFFFFFFFFFF : Word) ≤ 0xFFFFFFFFFFFFFF := by decide

/-- EveryInstructionOnlyAppendsItsResponse: an entry free, and none. -/
theorem witness_EveryInstructionOnlyAppendsItsResponse :
    room.pend.length < room.params.depth ∧ crowded.params.depth ≤ crowded.pend.length := by decide

/-- ResponseDependsOnTheFieldsTheOpReads: two requests that differ in a field their op does not read, for
an op that reads `a`, one that reads the window and one that reads lane 0. -/
theorem witness_ResponseDependsOnTheFieldsTheOpReads :
    let q : Request := ⟨0, 5, Lanes.zero, 0⟩; let q' : Request := ⟨0, 5, ⟨1, 0, 0, 0, 0, 0, 0, 0, 0⟩, 3⟩
    let d : Request := ⟨2, 5, Lanes.zero, 1⟩; let d' : Request := ⟨2, 6, Lanes.zero, 1⟩
    let t : Request := ⟨7, 5, ⟨1, 0, 0, 0, 0, 0, 0, 0, 0⟩, 1⟩; let t' : Request := ⟨7, 6, ⟨1, 2, 0, 0, 0, 0, 0, 0, 0⟩, 0⟩
    q ≠ q' ∧ q.op = q'.op ∧ q.a = q'.a ∧
    d ≠ d' ∧ d.op = d'.op ∧ d.b = d'.b ∧ d.avail = d'.avail ∧
    t ≠ t' ∧ t.op = t'.op ∧ t.b.b0 = t'.b.b0 := by decide

/-- OnlyDecodesReportAStatusOtherThanOk: `DECU [], 0`. -/
theorem witness_OnlyDecodesReportAStatusOtherThanOk :
    (respond ⟨2, 0, Lanes.zero, 0⟩).status ≠ .ok := by decide

/-- StepRunsThePresentedRequest. -/
theorem witness_StepRunsThePresentedRequest :
    let s := driven [encuEdge] room
    s.live = true ∧ s.nextInput.rst = false ∧ s.nextInput.hostReads = false ∧ s.nextInput.reqValid = true ∧
    s.pend.length < s.params.depth := by decide

/-- StepRunsThePresentedEncodedInteger: `DECU [81 2C AB], 3`. -/
theorem witness_StepRunsThePresentedEncodedInteger :
    let s := driven [decuEdge] room
    (s.live = true ∧ s.nextInput.rst = false ∧ s.nextInput.hostReads = false ∧ s.nextInput.reqValid = true ∧
      s.nextInput.reqOp = 2 ∧ s.pend.length < s.params.depth) ∧
    decodeWire (s.nextInput.request.b.toList.take (effAvail s.nextInput.reqAvail)) =
      .ok (.varintL2 0x12C, [0xAB]) := ⟨by decide, rfl⟩

/-- PlacedTableWordRunsNext: a request word and a wire format. -/
theorem witness_PlacedTableWordRunsNext :
    room.live = true ∧ room.pend.length < room.params.depth ∧
    decodeTableWord 144 0x70000000000000000C500000000000000000 = some (.taglen 0xC5) ∧
    decodeTableWord 16 0x2C81 = some (.varintL2 0x12C) := by decide

/-- EdgeDeliversThenAccepts: the edge of a full queue with a request and a ready host, and that of an
empty queue with a request. -/
theorem witness_EdgeDeliversThenAccepts :
    let s := driven [{ encuEdge with rspReady := true }] crowded
    let e := driven [encuEdge] room
    (s.live = true ∧ s.nextInput.rst = false ∧ s.nextInput.hostReads = false) ∧
    (e.live = true ∧ e.nextInput.rst = false ∧ e.nextInput.hostReads = false) := by decide

/-- ResetEdgeEmptiesTheQueue: a reset edge of a full queue, and a read of no value. -/
theorem witness_ResetEdgeEmptiesTheQueue :
    let s := driven [rstEdge] crowded
    let r := driven [{ rstEdge with hostReads := true }] crowded
    (s.nextInput.rst = true ∧ s.nextInput.hostReads = false) ∧
    (r.live = true ∧ r.nextInput.hostReads = true ∧ r.rspValid r.nextInput.rst = false) := by decide

/-- FirstRequestAfterResetIsAccepted. -/
theorem witness_FirstRequestAfterResetIsAccepted :
    let s := driven [encuEdge] room
    s.live = true ∧ s.pend = [] ∧ s.nextInput.rst = false ∧ s.nextInput.hostReads = false ∧
    s.nextInput.reqValid = true := by decide

/-- NothingIsDeliveredBeforeTheFirstReset: each clause. -/
theorem witness_NothingIsDeliveredBeforeTheFirstReset :
    dark.live = false ∧
    ((driven [encuEdge] dark).nextInput.rst = false ∧ (driven [encuEdge] dark).nextInput.hostReads = false) ∧
    (driven [readEdge] dark).nextInput.hostReads = true ∧
    ((driven [rstEdge] dark).nextInput.rst = true ∧ (driven [rstEdge] dark).nextInput.hostReads = false) := by
  decide

/-- PortShowsTheQueue: a queue whose head is ready. -/
theorem witness_PortShowsTheQueue :
    crowded.live = true ∧ crowded.pend = ⟨encuResponse 0x7F, 2⟩ :: [⟨zzeResponse 1, 1⟩] ∧
    crowded.params.latency ≤ 2 := by decide

/-- EveryStepKeepsTheQueueSound: a sound full queue, and a step of it. -/
theorem witness_EveryStepKeepsTheQueueSound :
    (driven [takeEdge] crowded).QueueSound ∧ ∃ t, step (driven [takeEdge] crowded) = .next t :=
  ⟨{ bounded := fun _ => by decide
     ordered := fun _ => by decide
     aged := fun _ => by decide
     responses := by
       intro _ e he
       simp only [driven, crowded, List.mem_cons, List.not_mem_nil, or_false] at he
       obtain rfl | rfl := he
       · exact ⟨⟨0, 0x7F, Lanes.zero, 0⟩, rfl⟩
       · exact ⟨⟨4, 1, Lanes.zero, 0⟩, rfl⟩
     handed := by intro r hr; exact absurd hr (by simp [driven, crowded, room, State.resetWith]) },
   ⟨_, rfl⟩⟩

/-- StepFrame: a step that delivers. -/
theorem witness_StepFrame :
    (∃ t, step (driven [takeEdge] crowded) = .next t ∧ t.delivered ≠ (driven [takeEdge] crowded).delivered) ∧
    (driven [takeEdge] crowded).live = true := ⟨⟨_, rfl, by decide⟩, rfl⟩

/-- StepStopsOnlyOnAReadOfNoValue: both faults. -/
theorem witness_StepStopsOnlyOnAReadOfNoValue :
    ((driven [readEdge] room).nextInput.hostReads = true ∧ (driven [readEdge] room).rspFields false = none) ∧
    ((driven [readEdge] dark).nextInput.hostReads = true ∧ (driven [readEdge] dark).rspFields false = none) :=
  ⟨⟨rfl, rfl⟩, ⟨rfl, rfl⟩⟩

/-- ResponsesComeOnceEachInOrder: two edges, one that accepts and one that delivers. -/
theorem witness_ResponsesComeOnceEachInOrder :
    let s := driven [encuEdge, takeEdge] room
    s.live = true ∧ s.noResetIn 2 ∧ ∃ t, runFor 2 s = .next t :=
  ⟨rfl, by unfold State.noResetIn; decide, ⟨_, rfl⟩⟩

/-- NoDeliveryBeforeLatency: `LATENCY` 3, and two edges after the accepting one. -/
theorem witness_NoDeliveryBeforeLatency :
    let s := driven [encuEdge, takeEdge, takeEdge] slow
    s.live = true ∧ accepts s.nextInput s = true ∧ 2 < s.params.latency ∧
    ∃ t, step s = .next t ∧ t.noResetIn 2 ∧ ∃ t', runFor 2 t = .next t' :=
  ⟨rfl, by decide, by decide, ⟨_, rfl, by unfold State.noResetIn; decide, ⟨_, rfl⟩⟩⟩

/-- QueuedResponsesAreDelivered, where the host reads the data fields: a full queue, three ready edges,
and a read of a response at the first. -/
theorem witness_QueuedResponsesAreDelivered_reading :
    let s := driven [{ takeEdge with hostReads := true }, takeEdge, takeEdge] crowded
    s.live = true ∧ s.noResetIn s.inputs.length ∧ ¬ s.noReads ∧
    s.params.latency + s.pend.length ≤ s.readyEdges ∧ ∃ t, runFor s.inputs.length s = .next t :=
  ⟨rfl, by unfold State.noResetIn; decide, by unfold State.noReads; decide, by decide, ⟨_, rfl⟩⟩

/-- QueuedResponsesAreDelivered: a full queue and three ready edges, and one edge of it that delivers. -/
theorem witness_QueuedResponsesAreDelivered :
    let s := driven [takeEdge, takeEdge, takeEdge] crowded
    (s.live = true ∧ s.noResetIn s.inputs.length ∧ s.noReads ∧
      s.params.latency + s.pend.length ≤ s.readyEdges) ∧
    s.pend.length = s.params.depth ∧ ∃ t, step s = .next t ∧ t.delivered ≠ s.delivered :=
  ⟨⟨rfl, by unfold State.noResetIn; decide, by unfold State.noReads; decide, by decide⟩, by decide,
    ⟨_, rfl, by decide⟩⟩

/-- HeldResponseStaysOnThePort. -/
theorem witness_HeldResponseStaysOnThePort :
    let s := driven [encuEdge] crowded
    s.live = true ∧ s.rspValid false = true ∧ s.nextInput.rst = false ∧ s.nextInput.rspReady = false := by
  decide

/-- HeldRequestIsAcceptedAfterTheNextDelivery: the same request at both edges. -/
theorem witness_HeldRequestIsAcceptedAfterTheNextDelivery :
    let s := driven [{ encuEdge with rspReady := true }, encuEdge] crowded
    (s.live = true ∧ s.nextInput.rst = false ∧ s.nextInput.reqValid = true ∧
      s.pend.length = s.params.depth) ∧ s.HoldsRequest ∧
    ∃ t, step s = .next t ∧ t.delivered ≠ s.delivered ∧ t.nextInput.rst = false :=
  ⟨by decide, by unfold State.HoldsRequest; decide, ⟨_, rfl, by decide, rfl⟩⟩

/-- InstancesAreIndependent: a step of the second of two instances. -/
theorem witness_InstancesAreIndependent :
    (∃ sys', System.stepAt 1 [room, driven [encuEdge] room] = .next sys') ∧
    [room, driven [encuEdge] room][1]? = some (driven [encuEdge] room) := ⟨⟨_, rfl⟩, rfl⟩

/-- AvailCountsAtMostNineLanes: both ends of the range. -/
theorem witness_AvailCountsAtMostNineLanes : 9 ≤ (9 : BitVec 4).toNat ∧ 9 ≤ (15 : BitVec 4).toNat := by decide

/-- DecuReportsEmptyTruncOrTheValue: the clause on the tag `0xFF`, at both ends. -/
theorem witness_DecuReportsEmptyTruncOrTheValue :
    (⟨0xFF, 0, 0, 0, 0, 0, 0, 0, 0⟩ : Lanes).b0 = 0xFF ∧ 1 ≤ (1 : BitVec 4).toNat ∧
    (8 : BitVec 4).toNat ≤ 8 := by decide

/-- DecodeReadsOnlyTheListedLanes: windows that agree on the lanes that are read and not elsewhere, of
no lane, of a truncated encoding and of a whole one. -/
theorem witness_DecodeReadsOnlyTheListedLanes :
    let b : Lanes := ⟨0x81, 0x2C, 0, 0, 0, 0, 0, 0, 0⟩
    let b' : Lanes := ⟨0x81, 0x2C, 0xAA, 0, 0, 0, 0, 0, 0xBB⟩
    let c : Lanes := ⟨0x81, 0x55, 0, 0, 0, 0, 0, 0, 0⟩
    effAvail 9 = effAvail 15 ∧ effAvail 0 = 0 ∧ b.b0 = b'.b0 ∧ b.b0 = c.b0 ∧
    ¬ (tagLen b.b0).toNat ≤ effAvail 1 ∧ (tagLen b.b0).toNat ≤ effAvail 9 ∧
    (∀ i : Fin 9, i.val < (tagLen b.b0).toNat → b.lane i = b'.lane i) ∧ b ≠ b' ∧ b ≠ c := by decide

end Sys2Proof.Tests
end

section
/-! SUPPORT. What no step changes: the responses already handed to the host, that a reset has happened,
and the counter of free values; and when a step hands a response over (R31, R35, R140, R141). -/

namespace Sys2Proof.Machine

/-- R31: a delivery only adds to what the host already has. -/
theorem delivered_prefix_deliverPhase (p : PortIn) (s : State) :
    s.delivered <+: (deliverPhase p s).delivered := by
  obtain ⟨-, e, rest, -, -, h⟩ | ⟨-, h⟩ := deliverPhase_cases p s <;> rw [h]
  · exact List.prefix_append s.delivered [e.rsp]
  · exact List.prefix_rfl

/-- R31: nothing is handed to a host that is not ready for it. -/
theorem rspReady_of_deliverPhase_delivers {p : PortIn} {s : State}
    (hne : (deliverPhase p s).delivered ≠ s.delivered) : p.rspReady = true := by
  obtain ⟨hr, -⟩ | ⟨-, h⟩ := deliverPhase_cases p s
  · exact hr
  · exact absurd (by rw [h, passEdge_delivered]) hne

section step
variable {s t : State}

theorem step_delivered_prefix (h : step s = .next t) : s.delivered <+: t.delivered := by
  have hph := delivered_prefix_deliverPhase s.nextInput s.takeInput
  obtain ⟨-, rfl⟩ | ⟨-, -, rfl⟩ | ⟨-, -, -, rfl⟩ | ⟨-, -, -, rfl⟩ := step_next_cases h
  · exact List.prefix_rfl
  · exact List.prefix_rfl
  · exact hph
  · exact hph

theorem step_live_fresh (h : step s = .next t) (hl : s.live = true) :
    t.live = true ∧ t.fresh = s.fresh := by
  obtain ⟨-, rfl⟩ | ⟨-, hl', rfl⟩ | ⟨-, -, -, rfl⟩ | ⟨-, -, -, rfl⟩ := step_next_cases h
  · simp
  · rw [hl] at hl'; cases hl'
  · simp [hl]
  · simp [hl]

/-- A response is handed over only by the delivery phase, which a reset edge and an edge before the first
reset do not have. -/
theorem step_delivers_only_when (h : step s = .next t) (hne : t.delivered ≠ s.delivered) :
    s.live = true ∧ s.nextInput.rst = false ∧ s.nextInput.rspReady = true := by
  obtain ⟨-, rfl⟩ | ⟨-, -, rfl⟩ | ⟨hr, hl, -, rfl⟩ | ⟨hr, hl, -, rfl⟩ := step_next_cases h
  · exact absurd rfl hne
  · exact absurd rfl hne
  · exact ⟨hl, hr, rspReady_of_deliverPhase_delivers hne⟩
  · exact ⟨hl, hr, rspReady_of_deliverPhase_delivers hne⟩

end step

end Sys2Proof.Machine

open Sys2Proof.Machine

/-- Settles O49: each part of the frame holds of all four edges by which a step can answer. -/
theorem stepFrame : Obligations.StepFrame := by
  unfold Obligations.StepFrame
  intro s t h
  obtain ⟨hparams, hinputs⟩ := step_params_inputs h
  exact ⟨hparams, hinputs, step_delivered_prefix h, step_live_fresh h, step_delivers_only_when h⟩
end

section
/-! SUPPORT. The queue over steps and runs: what keeps it sound, operation by operation, and the trace of
responses (R29 to R31, R36, R46, R140, R141). -/

namespace Sys2Proof.Machine

/-! ### What keeps the queue sound -/

section sound
variable {s : State}

theorem queueSound_of_empty (hp : s.pend = [])
    (hd : ∀ r ∈ s.delivered, ∃ q : Request, r = respond q) : s.QueueSound where
  bounded _ := by simp [hp]
  ordered _ := by simp [hp]
  aged _ := by simp [hp]
  responses _ := by simp [hp]
  handed := hd

/-- Before the first reset nothing is claimed of the contents of `pend` (R141). -/
theorem queueSound_of_not_live (hl : s.live = false)
    (hd : ∀ r ∈ s.delivered, ∃ q : Request, r = respond q) : s.QueueSound where
  bounded h := by simp [hl] at h
  ordered h := by simp [hl] at h
  aged h := by simp [hl] at h
  responses h := by simp [hl] at h
  handed := hd

theorem queueSound_takeInput (h : s.QueueSound) : s.takeInput.QueueSound :=
  ⟨h.bounded, h.ordered, h.aged, h.responses, h.handed⟩

/-- The head that is handed over was a response of the queue, and the entries behind it keep their order
(R31). -/
theorem queueSound_deliver (h : s.QueueSound) (hl : s.live = true) :
    (deliver s).QueueSound where
  bounded _ := by
    have := h.bounded hl
    rw [deliver_pend, deliver_params, List.length_tail]
    omega
  ordered _ := by
    rw [deliver_pend]
    exact (h.ordered hl).sublist (List.tail_sublist _)
  aged _ e he := by
    rw [deliver_pend] at he
    exact h.aged hl e (List.mem_of_mem_tail he)
  responses _ e he := by
    rw [deliver_pend] at he
    exact h.responses hl e (List.mem_of_mem_tail he)
  handed r hr := by
    rw [deliver_delivered, List.mem_append] at hr
    obtain hr | hr := hr
    · exact h.handed r hr
    · obtain ⟨e, he, rfl⟩ : ∃ e, s.pend.head? = some e ∧ e.rsp = r := by simpa using hr
      exact h.responses hl e (List.mem_of_mem_head? he)

/-- Growing older by the same amount keeps the order of the ages (R146). -/
theorem queueSound_passEdge (h : s.QueueSound) : (passEdge s).QueueSound where
  bounded hl := by simpa using h.bounded hl
  ordered hl := by simpa [List.pairwise_map] using h.ordered hl
  aged hl e he := by
    obtain ⟨e', -, rfl⟩ := List.mem_map.mp he
    exact Nat.le_add_left 1 e'.age
  responses hl e he := by
    obtain ⟨e', he', rfl⟩ := List.mem_map.mp he
    exact h.responses hl e' he'
  handed := h.handed

theorem queueSound_deliverPhase (h : s.QueueSound) (hl : s.live = true) (p : PortIn) :
    (deliverPhase p s).QueueSound := by
  unfold deliverPhase
  split
  · exact queueSound_passEdge (queueSound_deliver h hl)
  · exact queueSound_passEdge h

/-- A new entry goes behind entries that are all older than it (R30, R36). -/
theorem queueSound_push (h : s.QueueSound) (hroom : s.pend.length < s.params.depth)
    (hold : ∀ e ∈ s.pend, 1 < e.age) (q : Request) : (s.push (respond q)).QueueSound where
  bounded _ := by simpa using hroom
  ordered hl := by
    rw [State.push_pend, List.pairwise_append]
    refine ⟨h.ordered hl, List.pairwise_singleton _ _, fun e he e' he' => ?_⟩
    obtain rfl := List.mem_singleton.mp he'
    exact hold e he
  aged hl e he := by
    obtain he | he := List.mem_append.mp he
    · exact h.aged hl e he
    · obtain rfl := List.mem_singleton.mp he
      exact Nat.le_refl 1
  responses hl e he := by
    obtain he | he := List.mem_append.mp he
    · exact h.responses hl e he
    · obtain rfl := List.mem_singleton.mp he
      exact ⟨q, rfl⟩
  handed := h.handed

end sound

/-- What the delivery phase leaves queued was queued before, one edge younger (R36). -/
theorem exists_of_mem_deliverPhase {p : PortIn} {s : State} {e : Pending}
    (he : e ∈ (deliverPhase p s).pend) : ∃ e' ∈ s.pend, e.rsp = e'.rsp ∧ e.age = e'.age + 1 := by
  obtain ⟨-, head, rest, hp, -, h⟩ | ⟨-, h⟩ := deliverPhase_cases p s <;> rw [h] at he <;>
    obtain ⟨e', he', rfl⟩ := List.mem_map.mp he
  · exact ⟨e', hp ▸ List.mem_cons_of_mem _ he', rfl, rfl⟩
  · exact ⟨e', he', rfl, rfl⟩

/-- The delivery phase and the acceptance of a request at the same edge (R36). -/
theorem queueSound_deliverPhase_push {s : State} {p : PortIn} (h : s.QueueSound)
    (ha : accepts p s = true) (q : Request) : ((deliverPhase p s).push (respond q)).QueueSound := by
  obtain ⟨-, hl, -, hroom⟩ := (accepts_iff p s).mp ha
  refine queueSound_push (queueSound_deliverPhase h hl p) ?_ (fun e he => ?_) q
  · rw [deliverPhase_params]
    exact lt_of_le_of_lt (length_deliverPhase_le p s) hroom
  · obtain ⟨e', he', -, hage⟩ := exists_of_mem_deliverPhase he
    have := h.aged hl e' he'
    omega

/-- Every edge that answers a next state keeps the queue sound. -/
theorem step_keeps_queueSound {s t : State} (h : s.QueueSound) (hst : step s = .next t) :
    t.QueueSound := by
  obtain ⟨-, rfl⟩ | ⟨-, hl, rfl⟩ | ⟨-, -, ha, rfl⟩ | ⟨-, hl, -, rfl⟩ := step_next_cases hst
  · exact queueSound_of_empty rfl h.handed
  · exact queueSound_of_not_live hl h.handed
  · exact queueSound_deliverPhase_push (queueSound_takeInput h) ha _
  · exact queueSound_deliverPhase (queueSound_takeInput h) hl _

theorem queueSound_resetWith (c : Params) : (State.resetWith c).QueueSound :=
  queueSound_of_empty rfl (by simp [State.resetWith])

theorem queueSound_powerOn (c : Params) (stream : Nat) : (State.powerOn c stream).QueueSound :=
  queueSound_of_not_live rfl (by simp [State.powerOn])

/-! ### The trace of responses over a run -/

/-- The trace grows by the response of each request accepted, over a run of any length without a reset
edge (R31, R46). -/
theorem responseTrace_runFor (k : Nat) {s t : State} (hl : s.live = true) (hn : s.noResetIn k)
    (hrun : runFor k s = .next t) :
    t.responseTrace = s.responseTrace ++ (acceptedIn k s).map respond := by
  induction k generalizing s with
  | zero =>
    obtain rfl : s = t := by simpa [runFor] using hrun
    simp [acceptedIn]
  | succ k ih =>
    rw [runFor_succ] at hrun
    cases hst : step s with
    | next s' =>
      rw [hst] at hrun
      obtain ⟨hl', htrace⟩ := responseTrace_step hl (noResetIn_succ hn).1 hst
      rw [ih hl' (noResetIn_step hn hst) hrun, htrace, acceptedIn, hst, List.map_append,
        List.append_assoc]
    | fault f => rw [hst] at hrun; cases hrun
    | refused f => rw [hst] at hrun; cases hrun

end Sys2Proof.Machine

open Sys2Proof.Machine

/-- Settles O48: reset empties the queue, before a reset nothing is claimed of it, and the delivery phase
makes every entry older than the one that the edge then appends. -/
theorem everyStepKeepsTheQueueSound : Obligations.EveryStepKeepsTheQueueSound := by
  unfold Obligations.EveryStepKeepsTheQueueSound
  exact fun _ _ => step_keeps_queueSound

/-- Settles O51, by induction on the length of the run. -/
theorem responsesComeOnceEachInOrder : Obligations.ResponsesComeOnceEachInOrder := by
  unfold Obligations.ResponsesComeOnceEachInOrder
  exact fun k _ _ => responseTrace_runFor k

/-- Settles O47. -/
theorem queueIsSoundAtReset : Obligations.QueueIsSoundAtReset := by
  unfold Obligations.QueueIsSoundAtReset
  exact ⟨queueSound_resetWith Sys2Proof.Config.params,
    fun c stream => ⟨queueSound_resetWith c, queueSound_powerOn c stream⟩⟩
end

section
/-! SUPPORT. Instructions and requests: the frame of every instruction, which fields `Respond` reads, op
by op, and the statuses it reports (R30, R33, R36, R58, R59, R120). -/

namespace Sys2Proof.Machine

/-! ### `Respond`, one equation per op (R58) -/

section respond
variable (a : Word) (b : Lanes) (avail : BitVec 4)
theorem respond_encu : respond ⟨0, a, b, avail⟩ = encuResponse a := rfl
theorem respond_encs : respond ⟨1, a, b, avail⟩ = encsResponse a := rfl
theorem respond_decu : respond ⟨2, a, b, avail⟩ = decuResponse b avail := rfl
theorem respond_decs : respond ⟨3, a, b, avail⟩ = decsResponse b avail := rfl
theorem respond_zze : respond ⟨4, a, b, avail⟩ = zzeResponse a := rfl
theorem respond_zzd : respond ⟨5, a, b, avail⟩ = zzdResponse a := rfl
theorem respond_lenu : respond ⟨6, a, b, avail⟩ = lenuResponse a := rfl
theorem respond_taglen : respond ⟨7, a, b, avail⟩ = taglenResponse b.b0 := rfl
end respond

/-- The three bits of an op have eight values (R60). -/
theorem op_cases : ∀ op : BitVec 3,
    op = 0 ∨ op = 1 ∨ op = 2 ∨ op = 3 ∨ op = 4 ∨ op = 5 ∨ op = 6 ∨ op = 7 := by decide

/-- Requests of one op that agree on the fields it reads have the same response (R59). -/
theorem respond_congr {op : BitVec 3} {a a' : Word} {b b' : Lanes} {avail avail' : BitVec 4}
    (ha : op ≠ 2 → op ≠ 3 → op ≠ 7 → a = a')
    (hb : op = 2 ∨ op = 3 → b = b' ∧ avail = avail') (h0 : op = 7 → b.b0 = b'.b0) :
    respond ⟨op, a, b, avail⟩ = respond ⟨op, a', b', avail'⟩ := by
  obtain rfl | rfl | rfl | rfl | rfl | rfl | rfl | rfl := op_cases op
  · rw [respond_encu, respond_encu, ha (by decide) (by decide) (by decide)]
  · rw [respond_encs, respond_encs, ha (by decide) (by decide) (by decide)]
  · obtain ⟨rfl, rfl⟩ := hb (.inl rfl)
    rw [respond_decu, respond_decu]
  · obtain ⟨rfl, rfl⟩ := hb (.inr rfl)
    rw [respond_decs, respond_decs]
  · rw [respond_zze, respond_zze, ha (by decide) (by decide) (by decide)]
  · rw [respond_zzd, respond_zzd, ha (by decide) (by decide) (by decide)]
  · rw [respond_lenu, respond_lenu, ha (by decide) (by decide) (by decide)]
  · rw [respond_taglen, respond_taglen, h0 rfl]

/-! ### Statuses (R33, R120) -/

/-- Every op but the two decodes answers `OK`. -/
theorem respond_status_ok {q : Request} (h2 : q.op ≠ 2) (h3 : q.op ≠ 3) :
    (respond q).status = .ok := by
  obtain ⟨op, a, b, avail⟩ := q
  obtain rfl | rfl | rfl | rfl | rfl | rfl | rfl | rfl := op_cases op
  case inr.inr.inl => exact absurd rfl h2
  case inr.inr.inr.inl => exact absurd rfl h3
  all_goals rfl

theorem status_code_ne_three (st : Status) : st.code ≠ 3 := by cases st <;> decide

theorem readStatus_code (st : Status) : readStatus st.code = .ok st := by cases st <;> rfl

theorem readStatus_three : readStatus 3 = .error .reservedStatusCode := rfl

end Sys2Proof.Machine

open Sys2Proof Sys2Proof.Machine

/-- Settles O35: the response is `responseOf i`, since every instruction is the acceptance of it. -/
theorem everyInstructionOnlyAppendsItsResponse :
    Obligations.EveryInstructionOnlyAppendsItsResponse := by
  unfold Obligations.EveryInstructionOnlyAppendsItsResponse
  refine fun i => ⟨responseOf i, fun s => ⟨fun hroom => ?_, fun hfull => ?_⟩⟩
  · rw [exec_eq, accept_of_room _ hroom]
    rfl
  · rw [exec_eq, accept_of_full _ hfull]

/-- Settles O36. -/
theorem responseDependsOnTheFieldsTheOpReads :
    Obligations.ResponseDependsOnTheFieldsTheOpReads := by
  unfold Obligations.ResponseDependsOnTheFieldsTheOpReads
  constructor
  · intro q s hroom
    rw [exec_decodeRequest, accept_of_room _ hroom]
  · rintro ⟨op, a, b, avail⟩ ⟨op', a', b', avail'⟩ (rfl : op = op') ha hb h0
    exact respond_congr ha hb h0

/-- Settles O37. -/
theorem onlyDecodesReportAStatusOtherThanOk :
    Obligations.OnlyDecodesReportAStatusOtherThanOk := by
  unfold Obligations.OnlyDecodesReportAStatusOtherThanOk
  refine ⟨fun q hne => ?_, fun q => ⟨status_code_ne_three _, readStatus_code _⟩, readStatus_three,
    rfl, rfl, rfl⟩
  by_contra hop
  obtain ⟨h2, h3⟩ := not_or.mp hop
  exact hne (respond_status_ok h2 h3)
end

section
/-! SUPPORT. The port and the edge after a reset: the levels the port shows, the instruction that a
presented request runs, and the delivery and the acceptance of one edge (R34 to R36, R58, R142, R144). -/

namespace Sys2Proof.Machine

/-! ### The port after a reset (R35) -/

section port
variable {s : State}

theorem reqReady_iff_of_live (hl : s.live = true) :
    s.reqReady false = true ↔ s.pend.length < s.params.depth := by
  rw [← full_eq_false_iff]
  simp [State.reqReady, hl]

theorem rspValid_of_live (hl : s.live = true) : s.rspValid false = s.headReady := by
  simp [State.rspValid, hl]

/-- While `rsp_valid = 1` the data fields show the head of the queue (R35). -/
theorem rspFields_of_ready {e : Pending} {rest : List Pending} (hl : s.live = true)
    (hp : s.pend = e :: rest) (ha : s.params.latency ≤ e.age) :
    s.rspFields false = some (Response.pins e.rsp) := by
  have hready := (headReady_iff s).mpr ⟨e, rest, hp, ha⟩
  simp [State.rspFields, rspValid_of_live hl, hl, hready, hp]

/-- An empty queue takes a request and shows no response (R34, R142). -/
theorem outputs_of_empty (hl : s.live = true) (hp : s.pend = []) :
    s.outputs false = ⟨true, false, none⟩ := by
  have hready : s.headReady = false := by simp [State.headReady, hp]
  have hreq : s.reqReady false = true :=
    (reqReady_iff_of_live hl).mpr (by simp [hp, Params.depth])
  simp [State.outputs, State.rspFields, rspValid_of_live hl, hready, hreq]

end port

/-! ### The instruction that a presented request runs -/

/-- A request's own word decodes to the request's instruction (R58). -/
theorem decode_wordOfRequest (q : Request) :
    decode (.command (wordOfRequest q)) = .ok (decodeRequest q) :=
  decode_commandWord q.op q.a q.b q.avail

/-- An unsigned decode whose valid lanes begin with an encoded integer runs as that integer's wire format
(R62, R94). -/
theorem exec_decodeRequest_of_decodeWire {q : Request} {i : Instr} {rest : List Byte} (hop : q.op = 2)
    (h : decodeWire (q.b.toList.take (effAvail q.avail)) = .ok (i, rest)) (s : State) :
    exec (decodeRequest q) s = exec i s := by
  obtain ⟨op, a, b, avail⟩ := q
  obtain rfl : op = 2 := hop
  rw [exec_eq, exec_eq]
  exact congrArg (accept · s) (decodeResponse_of_decodeWire h)

/-- A window holds no more of one encoding than byte 0 declares: an `avail` of that length and one of nine
lanes give the same decode (R93). -/
theorem decodeResponse_declared (b : Lanes) :
    decodeResponse b (tagLen b.b0).code = decodeResponse b 9 := by
  rw [decodeResponse_ok (effAvail_code _).ge, decodeResponse_ok (Len.toNat_le _)]

theorem length_bytesOf (n w : Nat) : (bytesOf n w).length = n := by
  induction n generalizing w with
  | zero => rfl
  | succ n ih => simp [bytesOf, ih]

/-- The nine bytes of a wire word fill the window that presents it. -/
theorem toList_ofList_bytesOf (w : Nat) : (Lanes.ofList (bytesOf 9 w)).toList = bytesOf 9 w := by
  rw [Lanes.toList_ofList _ (length_bytesOf 9 w).le, length_bytesOf, Nat.sub_self]
  exact List.append_nil _

/-- The request that presents an opcode-table word runs the instruction the decoder reads from it. -/
theorem exec_tableWordRequest {nbits w : Nat} {i : Instr} (h : decodeTableWord nbits w = some i)
    (s : State) : exec (decodeRequest (tableWordRequest nbits w)) s = exec i s := by
  unfold decodeTableWord at h
  unfold tableWordRequest
  split at h
  case isTrue hwire =>
    rw [if_pos hwire]
    cases hd : decodeWire (bytesOf 9 w) with
    | error e => simp [hd] at h
    | ok r =>
      obtain rfl : r.1 = i := by simpa [hd] using h
      rw [← toList_ofList_bytesOf] at hd
      rw [exec_eq, exec_eq]
      exact congrArg (accept · s)
        ((decodeResponse_declared _).trans (decodeResponse_of_decodeWire (avail := 9) hd))
  case isFalse hwire =>
    rw [if_neg hwire]
    split at h
    · obtain rfl := Option.some.inj h
      rfl
    · cases h

/-- A step with a request presented and an entry free executes the request's instruction in the state
that the delivery of the same edge leaves (R36). -/
theorem step_of_request {s : State} (hl : s.live = true) (hr : s.nextInput.rst = false)
    (hh : s.nextInput.hostReads = false) (hv : s.nextInput.reqValid = true)
    (hroom : s.pend.length < s.params.depth) :
    step s = exec (decodeRequest s.nextInput.request) (deliverPhase s.nextInput s.takeInput) :=
  edge_of_accepts (badRead_of_not_reads _ hh) ((accepts_iff _ _).mpr ⟨hv, hl, hr, hroom⟩)

/-- The request on the port is the one presented: its window is read back from the bus (R42). -/
@[simp] theorem request_present (q : Request) : (PortIn.present q).request = q := by
  simp [PortIn.request, PortIn.present]

theorem deliverPhase_present (q : Request) (s : State) :
    deliverPhase (PortIn.present q) s = passEdge s := rfl

/-! ### Delivery and acceptance at one edge (R36) -/

/-- The delivery phase as a split of the queue into what it takes, at most the head, and what it keeps,
one edge older (R31, R35). -/
theorem deliverPhase_split (p : PortIn) (s : State) :
    ∃ taken kept : List Pending, s.pend = taken ++ kept ∧
      (deliverPhase p s).delivered = s.delivered ++ taken.map (·.rsp) ∧
      (deliverPhase p s).pend = kept.map (fun e => { e with age := e.age + 1 }) ∧
      ((∃ e, taken = [e] ∧ s.params.latency ≤ e.age ∧ p.rspReady = true) ∨
        (taken = [] ∧ (p.rspReady = false ∨ ∀ e ∈ s.pend.head?, e.age < s.params.latency))) := by
  obtain ⟨hr, e, rest, hp, ha, h⟩ | ⟨hnot, h⟩ := deliverPhase_cases p s <;> rw [h]
  · exact ⟨[e], rest, hp, rfl, rfl, .inl ⟨e, rfl, ha, hr⟩⟩
  · refine ⟨[], s.pend, rfl, (List.append_nil _).symm, rfl, .inr ⟨rfl, hnot.imp_right ?_⟩⟩
    intro hready e he
    obtain ⟨rest, hp⟩ := List.head?_eq_some_iff.mp he
    by_contra hage
    have := (headReady_iff s).mpr ⟨e, rest, hp, Nat.le_of_not_lt hage⟩
    simp [this] at hready

section next
variable {s t : State}

/-- An edge without a reset and without a read of the data fields answers the delivery phase, with the
accepted request's response behind it if there is one (R36). -/
theorem step_of_no_read (hl : s.live = true) (hr : s.nextInput.rst = false)
    (hh : s.nextInput.hostReads = false) :
    ∃ t, step s = .next t ∧ t.live = true ∧
      t.delivered = (deliverPhase s.nextInput s.takeInput).delivered ∧
      t.pend = (deliverPhase s.nextInput s.takeInput).pend ++
        (if s.nextInput.reqValid = true ∧ s.pend.length < s.params.depth
          then [⟨respond s.nextInput.request, 1⟩] else []) := by
  have hiff := accepts_iff s.nextInput s
  obtain ⟨hb, -⟩ | ⟨-, hr', -⟩ | ⟨-, -, hl', -⟩ | ⟨-, -, -, ha, he⟩ | ⟨-, -, -, ha, he⟩ :=
    edge_cases s.nextInput s.takeInput
  · simp [badRead_of_not_reads _ hh] at hb
  · simp [hr] at hr'
  · simp [hl] at hl'
  · obtain ⟨hv, -, -, hroom⟩ := hiff.mp ha
    exact ⟨_, he, by simp [hl], rfl, by simp [hv, hroom]⟩
  · have hno : ¬ (s.nextInput.reqValid = true ∧ s.pend.length < s.params.depth) := by
      rintro ⟨hv, hroom⟩
      simp [hiff.mpr ⟨hv, hl, hr, hroom⟩] at ha
    exact ⟨_, he, by simp [hl], rfl, by simp [hno]⟩

/-- A delivery frees an entry for the next edge, at an edge that accepts nothing (R36, R144). -/
theorem length_lt_of_delivers (hna : accepts s.nextInput s = false) (h : step s = .next t)
    (hne : t.delivered ≠ s.delivered) : t.pend.length < s.pend.length := by
  obtain ⟨-, rfl⟩ | ⟨-, -, rfl⟩ | ⟨-, -, ha, -⟩ | ⟨-, -, -, rfl⟩ := step_next_cases h
  · exact absurd rfl hne
  · exact absurd rfl hne
  · simp [hna] at ha
  · obtain ⟨-, e, rest, hp, -, hd⟩ | ⟨-, hd⟩ := deliverPhase_cases s.nextInput s.takeInput
    · rw [takeInput_pend] at hp
      simp [hd, hp]
    · exact absurd (by rw [hd, passEdge_delivered, takeInput_delivered]) hne

/-- The inputs of the edge after a step are the next ones on the list. -/
theorem nextInput_step (h : step s = .next t) : t.nextInput = s.takeInput.nextInput :=
  congrArg (·.headD PortIn.idle) (step_params_inputs h).2

end next

end Sys2Proof.Machine

open Sys2Proof Sys2Proof.Machine

/-- Settles O39. -/
theorem stepRunsThePresentedEncodedInteger : Obligations.StepRunsThePresentedEncodedInteger := by
  unfold Obligations.StepRunsThePresentedEncodedInteger
  intro s i rest hl hr hh hv hop hroom hw
  rw [step_of_request hl hr hh hv hroom]
  exact exec_decodeRequest_of_decodeWire hop hw _

/-- Settles O40: the placed word is presented at the very next edge, and no host takes a response
there. -/
theorem placedTableWordRunsNext : Obligations.PlacedTableWordRunsNext := by
  unfold Obligations.PlacedTableWordRunsNext
  intro s nbits w i hl hroom hw
  have hin : (s.withFetchWord nbits w).nextInput = PortIn.present (tableWordRequest nbits w) := rfl
  have htake : (s.withFetchWord nbits w).takeInput = s := rfl
  rw [step_of_request (s := s.withFetchWord nbits w) hl rfl rfl rfl hroom, hin, htake, request_present,
    deliverPhase_present]
  exact exec_tableWordRequest hw _

/-- Settles O41: the step's result by its delivery phase, and the delivery phase by its split of the
queue. -/
theorem edgeDeliversThenAccepts : Obligations.EdgeDeliversThenAccepts := by
  unfold Obligations.EdgeDeliversThenAccepts
  intro s hl hr hh
  obtain ⟨t, hst, hlive, hdelivered, hpend⟩ := step_of_no_read hl hr hh
  obtain ⟨hparams, hinputs⟩ := step_params_inputs hst
  obtain ⟨taken, kept, hsplit, hd, hp, hwhen⟩ := deliverPhase_split s.nextInput s.takeInput
  exact ⟨t, hst, hlive, hparams, hinputs, (step_live_fresh hst hl).2, kept, taken, hsplit,
    hdelivered.trans hd, hwhen, by rw [hpend, hp]⟩

/-- Settles O55: the full queue refuses the request, the delivery frees an entry, and the host's duty
brings the same request to the next edge. -/
theorem heldRequestIsAcceptedAfterTheNextDelivery :
    Obligations.HeldRequestIsAcceptedAfterTheNextDelivery := by
  unfold Obligations.HeldRequestIsAcceptedAfterTheNextDelivery
  intro s t hl hr hv hfull hholds hst hne hr'
  have hna : accepts s.nextInput s = false := by
    rw [← Bool.not_eq_true, accepts_iff]
    rintro ⟨-, -, -, hroom⟩
    omega
  obtain ⟨hv', hq⟩ := hholds hv hna hr
  rw [← nextInput_step hst] at hv' hq
  refine ⟨hna, (accepts_iff _ _).mpr ⟨hv', (step_live_fresh hst hl).1, hr', ?_⟩, hq⟩
  rw [(step_params_inputs hst).1, ← hfull]
  exact length_lt_of_delivers hna hst hne

/-- Settles O38. -/
theorem stepRunsThePresentedRequest : Obligations.StepRunsThePresentedRequest := by
  unfold Obligations.StepRunsThePresentedRequest
  exact fun s hl hr hh hv hroom => ⟨decode_wordOfRequest _, step_of_request hl hr hh hv hroom⟩

/-- Settles O44. -/
theorem resetStateIsEmptyAndReady : Obligations.ResetStateIsEmptyAndReady := by
  unfold Obligations.ResetStateIsEmptyAndReady
  exact ⟨fun c => ⟨rfl, rfl, rfl, outputs_of_empty rfl rfl⟩, rfl⟩

/-- Settles O46. -/
theorem portShowsTheQueue : Obligations.PortShowsTheQueue := by
  unfold Obligations.PortShowsTheQueue
  intro s hl
  refine ⟨reqReady_iff_of_live hl, ?_, fun e rest hp ha => rspFields_of_ready hl hp ha⟩
  rw [rspValid_of_live hl]
  exact headReady_iff s
end

section
/-! SUPPORT. The constant tables: the values of their formulas, one lemma per table, and the bytes that
declare a length (R21 to R25, R90). -/

namespace Sys2Proof.Machine

/-! ### The formulas of the tables -/

theorem toNat_maxv (n : Len) :
    (maxv n).toNat = if n = .l9 then 2 ^ 64 - 1 else 2 ^ (7 * n.toNat) - 1 := by cases n <;> rfl

theorem toNat_tagb (n : Len) : (tagb n).toNat = (0xFF * 2 ^ (9 - n.toNat)) % 256 := by cases n <;> rfl

theorem toNat_tagp (n : Len) : (tagp n).toNat = (tagb n).toNat * 2 ^ (8 * (n.toNat - 1)) := by
  cases n <;> rfl

theorem toNat_pmask0 (n : Len) :
    (pmask0 n).toNat = if n = .l9 then 0 else 0x7F / 2 ^ (n.toNat - 1) := by cases n <;> rfl

/-- Only the tag of nine bytes is wider than a 64-bit value (R23). -/
theorem toNat_tagp_lt {n : Len} (h : n ≠ .l9) : (tagp n).toNat < 2 ^ 64 := by
  revert h
  cases n <;> decide

/-- The tag stands above every payload bit (R23). -/
theorem tagp_and_maxv (n : Len) : tagp n &&& (maxv n).setWidth 72 = 0 := by cases n <;> rfl

/-- The payload bits are those of byte 0 and then all bits of the continuation bytes (R24). -/
theorem toNat_maxv_eq_or (n : Len) :
    (maxv n).toNat =
      (pmask0 n).toNat * 2 ^ (8 * (n.toNat - 1)) ||| (2 ^ (8 * (n.toNat - 1)) - 1) := by
  cases n <;> rfl

/-! ### Leading ones -/

/-- The bits that `onesBelow` counts are ones. -/
theorem getLsbD_of_lt_onesBelow (t : Byte) {n j : Nat} (h : j < onesBelow t n) :
    t.getLsbD (n - 1 - j) = true := by
  induction n generalizing j with
  | zero => simp [onesBelow] at h
  | succ n ih =>
    rw [onesBelow] at h
    split at h
    case isTrue hbit =>
      cases j with
      | zero => exact hbit
      | succ j =>
        have := ih (j := j) (by omega)
        rwa [show n + 1 - 1 - (j + 1) = n - 1 - j by omega]
    case isFalse => omega

/-- The bit at which the count stops is a zero. -/
theorem getLsbD_onesBelow (t : Byte) {n : Nat} (h : onesBelow t n < n) :
    t.getLsbD (n - 1 - onesBelow t n) = false := by
  induction n with
  | zero => omega
  | succ n ih =>
    rw [onesBelow] at h ⊢
    split at h
    case isTrue hbit =>
      have := ih (by omega)
      rwa [if_pos hbit, show n + 1 - 1 - (1 + onesBelow t n) = n - 1 - onesBelow t n by omega]
    case isFalse hbit =>
      rw [if_neg hbit]
      exact Bool.eq_false_of_not_eq_true hbit

/-- The bytes that declare a length are those from its tag bits with no payload bit set to its tag bits
with all of them set (R25). -/
theorem tagLen_eq_iff (n : Len) (t : Byte) :
    tagLen t = n ↔ (tagb n).toNat ≤ t.toNat ∧ t.toNat ≤ (tagb n).toNat + (pmask0 n).toNat := by
  constructor
  · rintro rfl
    have hsplit := toNat_tag_split t
    have hmask : (t &&& pmask0 (tagLen t)).toNat ≤ (pmask0 (tagLen t)).toNat := by
      rw [BitVec.toNat_and]
      exact Nat.and_le_right
    omega
  · exact fun ⟨hlo, hhi⟩ => tagLen_of_range n t hlo hhi

/-- A range of one byte: all bits of byte 0 are tag bits (R25). -/
theorem tagLen_eq_iff_of_no_payload {n : Len} (h : pmask0 n = 0) (t : Byte) :
    tagLen t = n ↔ t = tagb n := by
  rw [tagLen_eq_iff, h, ← BitVec.toNat_inj]
  exact ⟨fun ⟨hlo, hhi⟩ => Nat.le_antisymm hhi hlo, fun heq => ⟨heq.ge, heq.le⟩⟩

end Sys2Proof.Machine

open Sys2Proof Sys2Proof.Machine

/-- Settles O9. -/
theorem lengthTablesHoldTheirFormulas : Obligations.LengthTablesHoldTheirFormulas := by
  unfold Obligations.LengthTablesHoldTheirFormulas
  exact fun n => ⟨toNat_maxv n, toNat_tagb n, toNat_tagp n,
    fun h => ⟨toNat_tagp_lt h, tagp_and_maxv n⟩, toNat_pmask0 n, fun _ => toNat_maxv_eq_or n⟩

/-- Settles O10: the count by what it counts, and each range by the tag and payload bits of its length. -/
theorem tagLengthIsLeadingOnesPlusOne : Obligations.TagLengthIsLeadingOnesPlusOne := by
  unfold Obligations.TagLengthIsLeadingOnesPlusOne
  intro t
  refine ⟨toNat_tagLen t, Len.toNat_pos _, Len.toNat_le _, fun j => getLsbD_of_lt_onesBelow t,
    getLsbD_onesBelow t, ?_, tagLen_eq_iff .l2 t, tagLen_eq_iff .l3 t, tagLen_eq_iff .l4 t,
    tagLen_eq_iff .l5 t, tagLen_eq_iff .l6 t, tagLen_eq_iff .l7 t,
    tagLen_eq_iff_of_no_payload (n := .l8) rfl t, tagLen_eq_iff_of_no_payload (n := .l9) rfl t⟩
  exact (tagLen_eq_iff .l1 t).trans (and_iff_right (Nat.zero_le _))
end

section
/-! SUPPORT. Windows and cursors: the lanes of a window that comes in on a bus (20_memory.md R42), and
what a read can do to the host's cursor (R45). -/

namespace Sys2Proof

/-- Lane `i` of the window on a bus (R42). -/
theorem Lanes.lane_ofBus (w : BitVec 72) (i : Fin 9) :
    (Lanes.ofBus w).lane i = w.extractLsb' (64 - 8 * i.val) 8 := by
  fin_cases i <;> rfl

namespace Machine

/-- A decode is `EMPTY` exactly when no lane is valid (R94). -/
theorem decodeResponse_status_eq_empty_iff (b : Lanes) (avail : BitVec 4) :
    (decodeResponse b avail).status = .empty ↔ effAvail avail = 0 := by
  rcases decodeResponse_cases b avail with h | ⟨h1, h2⟩ | h
  · simp [decodeResponse_empty h, h]
  · simp [decodeResponse_trunc h1 h2, Nat.ne_of_gt h1]
  · have hne : effAvail avail ≠ 0 := Nat.ne_of_gt (lt_of_lt_of_le (Len.toNat_pos _) h)
    simp [decodeResponse_ok h, hne]

theorem effAvail_availOf_eq_zero_iff (cursor : List Byte) :
    effAvail (availOf cursor) = 0 ↔ cursor = [] := by
  rw [effAvail_availOf, ← List.length_eq_zero_iff]
  omega

section cursor
variable {cursor : List Byte}

/-- A cursor with fewer bytes than its byte 0 declares gives no value, and the read exhausts it (R45). -/
theorem readUvarint_of_length_lt (h : cursor.length < (tagLen (windowOf cursor).b0).toNat) :
    readUvarint cursor = (none, []) := by
  have hle := (tagLen (windowOf cursor).b0).toNat_le
  have he : effAvail (availOf cursor) = cursor.length := by rw [effAvail_availOf]; omega
  rcases Nat.eq_zero_or_pos cursor.length with h0 | hpos
  · have hd := decodeResponse_empty (b := windowOf cursor) (he.trans h0)
    simpa [readUvarint, decuResponse, hd, readResult, advance] using h0
  · have hd := decodeResponse_trunc (he ▸ hpos) (he ▸ h)
    have hadv : (countCode cursor.length).toNat = cursor.length := by
      rw [countCode, BitVec.toNat_ofNat, Nat.mod_eq_of_lt (by omega)]
    simp [readUvarint, decuResponse, hd, readResult, advance, he, hadv]

/-- A cursor with at least as many bytes as its byte 0 declares begins with the encoding of the value
that its window unpacks to. -/
theorem eq_wireBytes_append_of_le_length (h : (tagLen (windowOf cursor).b0).toNat ≤ cursor.length) :
    ∃ (n : Len) (u : Word) (rest : List Byte), u ≤ maxv n ∧ cursor = wireBytes n u ++ rest := by
  refine ⟨tagLen (windowOf cursor).b0, unpack (windowOf cursor) _,
    cursor.drop (tagLen (windowOf cursor).b0).toNat, unpack_le_maxv rfl, ?_⟩
  rw [wireBytes_unpack rfl, take_windowOf cursor (le_min h (Len.toNat_le _)), List.take_append_drop]

end cursor

/-- What a read can do: give no value and exhaust the cursor, or take the encoded integer off the front. -/
theorem readUvarint_cases (cursor : List Byte) :
    readUvarint cursor = (none, []) ∨
      ∃ (n : Len) (u : Word) (rest : List Byte), u ≤ maxv n ∧ cursor = wireBytes n u ++ rest ∧
        readUvarint cursor = (some u, rest) := by
  rcases Nat.lt_or_ge cursor.length (tagLen (windowOf cursor).b0).toNat with h | h
  · exact .inl (readUvarint_of_length_lt h)
  · obtain ⟨n, u, rest, hu, rfl⟩ := eq_wireBytes_append_of_le_length h
    exact .inr ⟨n, u, rest, hu, rfl, readUvarint_wireBytes hu rest⟩

end Machine
end Sys2Proof

open Sys2Proof Sys2Proof.Machine

/-- Settles O27: `EMPTY` by the valid lanes, the cursor by what a read can do. -/
theorem readLeavesTheCursorWhereTheSourceSays :
    Obligations.ReadLeavesTheCursorWhereTheSourceSays := by
  unfold Obligations.ReadLeavesTheCursorWhereTheSourceSays
  intro cursor
  refine ⟨(decodeResponse_status_eq_empty_iff _ _).trans (effAvail_availOf_eq_zero_iff cursor), ?_⟩
  obtain hread | ⟨n, u, rest, hu, rfl, hread⟩ := readUvarint_cases cursor
  · simp [hread]
  · refine ⟨by simp [hread], fun v tail hv => ?_⟩
    obtain ⟨rfl, rfl⟩ : u = v ∧ rest = tail := by simpa [hread] using hv
    exact ⟨n, hu, decodeWire_wireBytes_append hu rest⟩

/-- Settles O7: each lane by the window that the bus of a window carries, which is the window itself. -/
theorem lanePackingOnTheBus : Obligations.LanePackingOnTheBus := by
  unfold Obligations.LanePackingOnTheBus
  refine ⟨fun b => ⟨fun i => ?_, toNat_toBus b⟩, fun p => Lanes.toBus_ofBus p.reqB, fun _ => rfl⟩
  rw [← Lanes.lane_ofBus, Lanes.ofBus_toBus]
end

section
/-! SUPPORT. Encodings: the two forms in which an instruction is encoded, the rows that byte 0 selects, the
bits of an unpacked value, and what a written line or response says (R50 to R62). -/

namespace Sys2Proof

open Machine

/-! ### The two forms of an encoding -/

/-- A term of `Instr` is a command, encoded as the word of a request that decodes to it, or a wire format
(R51, R58). -/
theorem encode_cases (i : Instr) :
    (∃ q : Request, encode i = .command (wordOfRequest q) ∧ decodeRequest q = i) ∨
      ∃ (n : Len) (p : Word), i = Instr.ofWire n p := by
  cases i with
  | encu => exact .inl ⟨_, rfl, rfl⟩
  | encs => exact .inl ⟨_, rfl, rfl⟩
  | decu => exact .inl ⟨_, rfl, rfl⟩
  | decs => exact .inl ⟨_, rfl, rfl⟩
  | zze => exact .inl ⟨_, rfl, rfl⟩
  | zzd => exact .inl ⟨_, rfl, rfl⟩
  | lenu => exact .inl ⟨_, rfl, rfl⟩
  | taglen => exact .inl ⟨_, rfl, rfl⟩
  | varintL1 p => exact .inr ⟨.l1, p, rfl⟩
  | varintL2 p => exact .inr ⟨.l2, p, rfl⟩
  | varintL3 p => exact .inr ⟨.l3, p, rfl⟩
  | varintL4 p => exact .inr ⟨.l4, p, rfl⟩
  | varintL5 p => exact .inr ⟨.l5, p, rfl⟩
  | varintL6 p => exact .inr ⟨.l6, p, rfl⟩
  | varintL7 p => exact .inr ⟨.l7, p, rfl⟩
  | varintL8 p => exact .inr ⟨.l8, p, rfl⟩
  | varintL9 p => exact .inr ⟨.l9, p, rfl⟩

/-- A payload fits exactly when its wire format is well formed (R51). -/
theorem wf_ofWire_iff {n : Len} {p : Word} : (Instr.ofWire n p).wf = true ↔ p ≤ maxv n := by
  rw [wf_ofWire, payloadFits, decide_eq_true_iff]

/-- A byte string with nothing left over is the instruction read from its front (R50). -/
theorem decode_wire_of_decodeWire {bytes : List Byte} {i : Instr} (h : decodeWire bytes = .ok (i, [])) :
    decode (.wire bytes) = .ok i := by
  simp only [decode, h]

theorem decode_wireBytes {n : Len} {p : Word} (h : p ≤ maxv n) :
    decode (.wire (wireBytes n p)) = .ok (Instr.ofWire n p) := by
  have hw := decodeWire_wireBytes_append h []
  rw [List.append_nil] at hw
  exact decode_wire_of_decodeWire hw

/-- A request word decodes by its op and its fields (R58). -/
theorem decode_command_of_op {w : BitVec 143} {op : BitVec 3} (h : w.extractLsb' 140 3 = op) :
    decode (.command w) = .ok (decodeRequest
      ⟨op, w.extractLsb' 76 64, Lanes.ofBus (w.extractLsb' 4 72), w.extractLsb' 0 4⟩) := by
  rw [← h]
  rfl

/-! ### Byte 0 and what is read after it -/

/-- A row of R51 accepts exactly the bytes that declare its length (R55). -/
theorem accepts_iff_tagLen : ∀ t : Byte, ∀ r ∈ wireRows, r.accepts t = true ↔ r.len = tagLen t := by decide

/-- No two rows of R51 have one length. -/
theorem wireRows_len_inj : ∀ r ∈ wireRows, ∀ r' ∈ wireRows, r.len = r'.len → r = r' := by decide

/-- Exactly one row accepts a byte: the row of the length that the byte declares (R55). -/
theorem existsUnique_wireRow (t : Byte) :
    ∃ r ∈ wireRows, r.accepts t = true ∧ r.len = tagLen t ∧
      ∀ r' ∈ wireRows, r'.accepts t = true → r' = r := by
  obtain ⟨r, hfind, hlen⟩ := wireRowOf_some t
  have hr : r ∈ wireRows := List.mem_of_find?_eq_some hfind
  refine ⟨r, hr, (accepts_iff_tagLen t r hr).mpr hlen, hlen, fun r' hr' hacc => ?_⟩
  exact wireRows_len_inj r' hr' r hr (((accepts_iff_tagLen t r' hr').mp hacc).trans hlen.symm)

/-- As many bytes as byte 0 declares are one encoded integer, whatever the continuation bytes are (R55). -/
theorem decode_wire_of_length_eq {b0 : Byte} {cont : List Byte}
    (h : cont.length + 1 = (tagLen b0).toNat) :
    decode (.wire (b0 :: cont)) = .ok (Instr.ofWire (tagLen b0) (wirePayload (tagLen b0) b0 cont)) := by
  have hcont : (tagLen b0).toNat - 1 = cont.length := by omega
  apply decode_wire_of_decodeWire
  rw [decodeWire_cons, if_neg (by omega), hcont, List.take_length, List.drop_length]

/-- What is read from the front of a stream is one encoded integer whose payload fits, and the stream is
its encoding and then what is left (R50, R51). -/
theorem eq_wireBytes_of_decodeWire {bytes rest : List Byte} {i : Instr}
    (h : decodeWire bytes = .ok (i, rest)) :
    ∃ (n : Len) (p : Word), p ≤ maxv n ∧ i = Instr.ofWire n p ∧ bytes = wireBytes n p ++ rest := by
  cases bytes with
  | nil => cases h
  | cons b0 tail =>
    have hlen : (tagLen b0).toNat ≤ tail.length + 1 := by
      by_contra hshort
      rw [decodeWire_cons, if_pos (Nat.lt_of_not_le hshort)] at h
      cases h
    obtain ⟨n, p, rest', hp, hbytes⟩ := eq_wireBytes_append_of_le_length (cursor := b0 :: tail) hlen
    rw [hbytes, decodeWire_wireBytes_append hp] at h
    cases h
    exact ⟨n, p, hp, rfl, hbytes⟩

namespace Machine

/-! ### The bits of an unpacked value (R52) -/

section unpack
variable {b : Lanes} {n : Len}

/-- Byte 0 of a window stands before its continuation bytes. -/
theorem take_toList_eq_cons (b : Lanes) (n : Len) :
    b.toList.take n.toNat = b.b0 :: (b.toList.take n.toNat).drop 1 := by cases n <;> rfl

/-- Bits below the width of a bus value are those of the word it extends. -/
theorem extractLsb'_setWidth_72 (u : Word) (k : Nat) (hk : k + 8 ≤ 72) :
    (u.setWidth 72).extractLsb' k 8 = u.extractLsb' k 8 := by
  ext j hj
  have hbit : k + j < 72 := by omega
  simp [hbit]

/-- A continuation byte of an encoding holds its eight bits of the payload (R52). -/
theorem getD_wireBytes (p : Word) {i : Nat} (h1 : 1 ≤ i) (hi : i < n.toNat) :
    (wireBytes n p).getD i 0 = p.extractLsb' (8 * (n.toNat - 1 - i)) 8 := by
  have hn := n.toNat_le
  obtain ⟨j, rfl⟩ : ∃ j, i = j + 1 := ⟨i - 1, by omega⟩
  rw [wireBytes, List.getD_cons_succ, getD_beBytes _ (by omega), extractLsb'_setWidth_72 _ _ (by omega),
    show n.toNat - 1 - 1 - j = n.toNat - 1 - (j + 1) by omega]

/-- The lanes after lane 0 are the payload bits below those of byte 0. -/
theorem extractLsb'_unpack (h : tagLen b.b0 = n) (i : Fin 9) (h1 : 1 ≤ i.val) (hi : i.val < n.toNat) :
    (unpack b n).extractLsb' (8 * (n.toNat - 1 - i.val)) 8 = b.lane i := by
  rw [← getD_wireBytes _ h1 hi, wireBytes_unpack h, List.getD_eq_getElem?_getD,
    List.getElem?_take_of_lt hi, List.getElem?_eq_getElem (l := b.toList) i.isLt]
  exact b.getElem_toList i

/-- The payload bits of byte 0 stand above those of the continuation bytes. -/
theorem toNat_unpack_div (h : tagLen b.b0 = n) :
    (unpack b n).toNat / 2 ^ (8 * (n.toNat - 1)) = (b.b0 &&& pmask0 n).toNat := by
  have hval := toNat_unpack h
  have htag := toNat_tag_split b.b0
  have hcont := beNat_lt ((b.toList.take n.toNat).drop 1)
  have hlen : ((b.toList.take n.toNat).drop 1).length = n.toNat - 1 := by cases n <;> rfl
  rw [take_toList_eq_cons, beNat, hlen, toNat_tagp, htag, h, Nat.add_mul] at hval
  rw [hlen] at hcont
  rw [show (unpack b n).toNat = (b.b0 &&& pmask0 n).toNat * 2 ^ (8 * (n.toNat - 1)) +
    beNat ((b.toList.take n.toNat).drop 1) by omega,
    Nat.mul_comm, Nat.mul_add_div (Nat.two_pow_pos _), Nat.div_eq_of_lt hcont, Nat.add_zero]

end unpack

/-! ### Written lines and listed lanes (R61) -/

/-- The line of a command assembles to a request that decodes to it. -/
theorem assemble_lineOf {i : Instr} {line : AsmLine} (h : lineOf i = some line) :
    ∃ q : Request, assemble line = some q ∧ decodeRequest q = i := by
  cases i <;> cases h
  case encu a => exact ⟨⟨0, a, Lanes.zero, 0⟩, by simp [assemble], rfl⟩
  case encs a => exact ⟨⟨1, a, Lanes.zero, 0⟩, by simp [assemble], rfl⟩
  case decu b avail => exact ⟨⟨2, 0, b, avail⟩, by simp [assemble], rfl⟩
  case decs b avail => exact ⟨⟨3, 0, b, avail⟩, by simp [assemble], rfl⟩
  case zze a => exact ⟨⟨4, a, Lanes.zero, 0⟩, by simp [assemble], rfl⟩
  case zzd a => exact ⟨⟨5, a, Lanes.zero, 0⟩, by simp [assemble], rfl⟩
  case lenu a => exact ⟨⟨6, a, Lanes.zero, 0⟩, by simp [assemble], rfl⟩
  case taglen t => exact ⟨⟨7, 0, Lanes.ofList [t], 0⟩, rfl, rfl⟩

/-- An encode response lists all of its bytes that are not `0x00` by rule (R71). -/
theorem ofList_listed_encodedResponse (u : Word) :
    Lanes.ofList ((encodedResponse u).bytes.toList.take (encodedResponse u).len.toNat) =
      (encodedResponse u).bytes := by
  have hlen : (encodedResponse u).len.toNat = (lenOf u).toNat := Len.toNat_code _
  rw [hlen]
  exact ofList_take_toList _ _ (Len.toNat_le _) fun i hi => packAt_lane_zero i hi

/-- A table response has its tag pattern in lane 0, which it lists (R74, R96). -/
theorem ofList_listed_tableResponse (n : Len) :
    Lanes.ofList ((tableResponse n).bytes.toList.take (tableResponse n).len.toNat) =
      (tableResponse n).bytes := by cases n <;> rfl

/-- A decode response has no bytes (R94). -/
theorem decodeResponse_bytes (b : Lanes) (avail : BitVec 4) :
    (decodeResponse b avail).bytes = Lanes.zero := by
  rcases decodeResponse_cases b avail with h | ⟨h1, h2⟩ | h
  · rw [decodeResponse_empty h]
  · rw [decodeResponse_trunc h1 h2]
  · rw [decodeResponse_ok h]

/-- The lanes that a response lists, with `0x00` for the others, are its bytes, op by op. -/
theorem ofList_listedLanes_respond (q : Request) :
    Lanes.ofList (listedLanes q.op (respond q)) = (respond q).bytes := by
  obtain ⟨op, a, b, avail⟩ := q
  obtain rfl | rfl | rfl | rfl | rfl | rfl | rfl | rfl := op_cases op
  · exact ofList_listed_encodedResponse a
  · exact ofList_listed_encodedResponse (zigzagEncode a)
  · exact (decodeResponse_bytes b avail).symm
  · exact (decodeResponse_bytes b avail).symm
  · rfl
  · rfl
  · exact ofList_listed_tableResponse (lenOf a)
  · exact ofList_listed_tableResponse (tagLen b.b0)

/-! ### Encoded integers on a stream and as instructions -/

theorem writeVarint_eq (sink : List Byte) (v : Word) :
    writeVarint sink v = sink ++ wireBytes (lenOf (zigzagEncode v)) (zigzagEncode v) := by
  rw [writeVarint, encsResponse, committed_encodedResponse]

/-- With an entry free, a wire format appends the response of its payload and length (R94). -/
theorem exec_ofWire {n : Len} {p : Word} {s : State} (h : p ≤ maxv n)
    (hroom : s.pend.length < s.params.depth) :
    exec (Instr.ofWire n p) s = .next (s.push ⟨.ok, p, n.code, n.code, Lanes.zero⟩) := by
  rw [exec_eq, responseOf_ofWire, wireResponse_eq h, accept_of_room _ hroom]

end Machine
end Sys2Proof

open Sys2Proof Sys2Proof.Machine

/-- Settles O1: a command by its request word, a wire format by the bytes of its payload, which fits. -/
theorem decodeEncodeRoundTrip : Obligations.DecodeEncodeRoundTrip := by
  unfold Obligations.DecodeEncodeRoundTrip
  intro i hwf
  obtain ⟨q, henc, rfl⟩ | ⟨n, p, rfl⟩ := encode_cases i
  · rw [henc, decode_wordOfRequest]
  · rw [encode_ofWire, decode_wireBytes (wf_ofWire_iff.mp hwf)]

/-- Settles O2. -/
theorem wireDecodeTakesOneIntegerOffAStream : Obligations.WireDecodeTakesOneIntegerOffAStream := by
  unfold Obligations.WireDecodeTakesOneIntegerOffAStream
  exact fun _ _ rest h => decodeWire_wireBytes_append h rest

/-- Settles O3. -/
theorem wireDecodeIsEncodingOfWhatItReads : Obligations.WireDecodeIsEncodingOfWhatItReads := by
  unfold Obligations.WireDecodeIsEncodingOfWhatItReads
  intro bytes i rest h
  obtain ⟨n, p, hp, rfl, hbytes⟩ := eq_wireBytes_of_decodeWire h
  exact ⟨wf_ofWire_iff.mpr hp, wireBytes n p, encode_ofWire n p, hbytes⟩

/-- Settles O6: the rows by the length that byte 0 declares, which counts its leading ones. -/
theorem everyByteZeroSelectsOneFormat : Obligations.EveryByteZeroSelectsOneFormat := by
  unfold Obligations.EveryByteZeroSelectsOneFormat
  constructor
  · intro t
    obtain ⟨r, hr, hacc, hlen, huniq⟩ := existsUnique_wireRow t
    exact ⟨r, hr, hacc, by rw [hlen, toNat_tagLen], huniq⟩
  · intro b0 cont hcont
    rw [← toNat_tagLen] at hcont
    exact ⟨tagLen b0, _, toNat_tagLen b0, decode_wire_of_length_eq hcont⟩

/-- Settles O8: lines by the literals they are written with, responses op by op. -/
theorem notationLosesNothing : Obligations.NotationLosesNothing := by
  unfold Obligations.NotationLosesNothing
  exact ⟨fun _ _ => assemble_lineOf, ofList_listedLanes_respond⟩

/-- Settles O17. -/
theorem unpackReadsThePayloadBits : Obligations.UnpackReadsThePayloadBits := by
  unfold Obligations.UnpackReadsThePayloadBits
  exact fun _ _ h => ⟨(wirePayload_eq_unpack h).symm, extractLsb'_unpack h,
    fun _ => toNat_unpack_div h, unpack_le_maxv h⟩

/-- Settles O29: the stream begins with the encoding of the zigzag pattern, which decodes to the value. -/
theorem signedValueReadsBackFromAStream : Obligations.SignedValueReadsBackFromAStream := by
  unfold Obligations.SignedValueReadsBackFromAStream
  intro v rest
  rw [writeVarint_eq, List.nil_append, readVarint_wireBytes (le_maxv_lenOf _),
    zigzagDecode_zigzagEncode]

/-- Settles O34: the formats of one to eight bytes by their capacities; nine bytes hold every value. -/
theorem wireFormatsAnswerTheirPayload : Obligations.WireFormatsAnswerTheirPayload := by
  unfold Obligations.WireFormatsAnswerTheirPayload
  intro p s hroom
  have hmax : p ≤ maxv .l9 := BitVec.le_def.mpr (Nat.le_of_lt_succ p.isLt)
  exact ⟨(exec_ofWire (n := .l1) · hroom), (exec_ofWire (n := .l2) · hroom),
    (exec_ofWire (n := .l3) · hroom), (exec_ofWire (n := .l4) · hroom),
    (exec_ofWire (n := .l5) · hroom), (exec_ofWire (n := .l6) · hroom),
    (exec_ofWire (n := .l7) · hroom), (exec_ofWire (n := .l8) · hroom), exec_ofWire hmax hroom⟩

/-- Settles O4: twelve closed words, each decoded by evaluation. -/
theorem referenceWordsDecode : Obligations.ReferenceWordsDecode := by
  unfold Obligations.ReferenceWordsDecode
  exact ⟨rfl, rfl, rfl, rfl, rfl, rfl, rfl, rfl, rfl, rfl, rfl, rfl⟩

/-- Settles O5: the word decodes by its op and fields, and the lanes are those of the request's window. -/
theorem requestWordFieldsAndOps : Obligations.RequestWordFieldsAndOps := by
  unfold Obligations.RequestWordFieldsAndOps
  intro w
  refine ⟨decode_command_of_op, decode_command_of_op,
    fun h => ⟨_, decode_command_of_op h, lane_requestOfWord w⟩,
    fun h => ⟨_, decode_command_of_op h, lane_requestOfWord w⟩,
    decode_command_of_op, decode_command_of_op, decode_command_of_op, fun h => ?_⟩
  exact (decode_command_of_op h).trans (congrArg (Except.ok ∘ Instr.taglen) (lane_requestOfWord w 0))
end

section
/-! SUPPORT. The encoder: the minimal length of a value by its bits, the lanes of an encoding, and the
responses of the encoding commands (R70 to R75). -/

namespace Sys2Proof

/-- The lengths are the numbers 1 to 9. -/
theorem Len.exists_toNat_eq {k : Nat} (h1 : 1 ≤ k) (h9 : k ≤ 9) : ∃ n : Len, n.toNat = k := by
  interval_cases k
  exacts [⟨.l1, rfl⟩, ⟨.l2, rfl⟩, ⟨.l3, rfl⟩, ⟨.l4, rfl⟩, ⟨.l5, rfl⟩, ⟨.l6, rfl⟩, ⟨.l7, rfl⟩,
    ⟨.l8, rfl⟩, ⟨.l9, rfl⟩]

namespace Machine

/-! ### The minimal length (R70) -/

section length
variable {u : Word}

theorem le_maxv_l9 (u : Word) : u ≤ maxv .l9 := BitVec.le_def.mpr (Nat.le_of_lt_succ u.isLt)

/-- A length of at most eight bytes holds the values of at most seven bits for each byte (R21). -/
theorem le_maxv_iff_size_le {n : Len} (h : n ≠ .l9) : u ≤ maxv n ↔ u.toNat.size ≤ 7 * n.toNat := by
  rw [BitVec.le_def, toNat_maxv, if_neg h, Nat.size_le, Nat.le_sub_one_iff_lt (Nat.two_pow_pos _)]

/-- A value fits in exactly the lengths from the closed form up (R70). -/
theorem le_maxv_iff_closedForm_le (u : Word) (n : Len) :
    u ≤ maxv n ↔ min 9 (max 1 ((u.toNat.size + 6) / 7)) ≤ n.toNat := by
  by_cases h : n = .l9
  · subst h
    exact iff_of_true (le_maxv_l9 u) (Nat.min_le_left _ _)
  · have hpos := n.toNat_pos
    have hne : n.toNat ≠ 9 := fun h9 => h (Len.toNat_inj h9)
    have hle := n.toNat_le
    rw [le_maxv_iff_size_le h]
    omega

/-- The closed form of `LenOf`: it and `LenOf` are the smallest of the same lengths (R70). -/
theorem toNat_lenOf (u : Word) : (lenOf u).toNat = min 9 (max 1 ((u.toNat.size + 6) / 7)) := by
  obtain ⟨m, hm⟩ := Len.exists_toNat_eq (k := min 9 (max 1 ((u.toNat.size + 6) / 7)))
    (by omega) (by omega)
  have hsame (n : Len) : (lenOf u).toNat ≤ n.toNat ↔ m.toNat ≤ n.toNat := by
    rw [← le_maxv_iff, le_maxv_iff_closedForm_le, hm]
  rw [← hm]
  exact Nat.le_antisymm ((hsame m).mpr le_rfl) ((hsame (lenOf u)).mp le_rfl)

/-- A value is above the capacity of every length shorter than its own (R75 b). -/
theorem maxv_lt_of_lt_lenOf {m : Len} (h : m.toNat < (lenOf u).toNat) : maxv m < u := by
  rw [← BitVec.not_le, le_maxv_iff]
  exact Nat.not_le_of_lt h

/-- The capacity of a length has that length (R70). -/
theorem lenOf_maxv (n : Len) : lenOf (maxv n) = n := by cases n <;> rfl

/-- The capacity of a length plus one has the next length (R70). -/
theorem toNat_lenOf_maxv_add_one {n : Len} (h : n ≠ .l9) :
    (lenOf (maxv n + 1)).toNat = n.toNat + 1 := by
  cases n
  case l9 => exact absurd rfl h
  all_goals rfl

/-- Values from `2^56` up have nine bytes (R72, R74). -/
theorem lenOf_eq_l9 (h : 2 ^ 56 ≤ u.toNat) : lenOf u = .l9 := by
  have hsize : 56 < u.toNat.size := Nat.lt_size.mpr h
  have hlen := toNat_lenOf u
  exact Len.toNat_inj (n := .l9) (show (lenOf u).toNat = 9 by omega)

end length

/-! ### The lanes of an encoding (R71) -/

section lanes
variable {n : Len} {u : Word}

theorem and_maxv_of_le (h : u ≤ maxv n) : u &&& maxv n = u := by
  apply BitVec.eq_of_toNat_eq
  rw [toNat_and_maxv]
  apply Nat.mod_eq_of_lt
  rw [BitVec.le_def, toNat_maxv] at h
  split at h
  case isTrue h9 => simpa [h9] using u.isLt
  case isFalse h9 =>
    rw [if_neg h9]
    exact (Nat.le_sub_one_iff_lt (Nat.two_pow_pos _)).mp h

/-- The tag stands above every bit of a value that fits (R23). -/
theorem tagp_and_of_le (h : u ≤ maxv n) : tagp n &&& u.setWidth 72 = 0 := by
  rw [← and_maxv_of_le h, BitVec.setWidth_and, BitVec.and_comm (u.setWidth 72), ← BitVec.and_assoc,
    tagp_and_maxv]
  exact BitVec.zero_and

/-- The lanes of an encoding are the tagged value, big-endian (R71). -/
theorem lane_packAt (h : u ≤ maxv n) (i : Fin 9) (hi : i.val < n.toNat) :
    (packAt n u).lane i =
      (tagp n ||| u.setWidth 72).extractLsb' (8 * (n.toNat - 1 - i.val)) 8 := by
  rw [packAt_eq n u h, lane_beBytes _ i hi]

/-- The lanes after lane 0 hold bits of the value alone (R52, R71). -/
theorem lane_packAt_of_pos (h : u ≤ maxv n) (i : Fin 9) (h1 : 1 ≤ i.val) (hi : i.val < n.toNat) :
    (packAt n u).lane i = u.extractLsb' (8 * (n.toNat - 1 - i.val)) 8 := by
  rw [← extractLsb'_unpack (tagLen_packAt h) i h1 hi, unpack_packAt h]

theorem packAt_l9_b0 (u : Word) : (packAt .l9 u).b0 = 0xFF := rfl

/-- The byte of a one-byte encoding is the value (R71). -/
theorem packAt_l1_b0 (u : Word) : (packAt .l1 u).b0 = u.setWidth 8 := by
  have hb0 : (packAt .l1 u).b0 = (0#72 ||| u.setWidth 72).extractLsb' 0 8 := rfl
  rw [hb0, BitVec.zero_or, extractLsb'_setWidth_72 u 0 (by decide),
    BitVec.setWidth_eq_extractLsb' (by decide)]

/-- Without its payload bits a tag byte is the tag pattern of its length (R22, R24). -/
theorem and_not_pmask0 : ∀ t : Byte, t &&& ~~~(pmask0 (tagLen t)) = tagb (tagLen t) := by decide

end lanes

section pack
variable (u : Word)

theorem tagLen_pack : tagLen (pack u).b0 = lenOf u := tagLen_packAt (le_maxv_lenOf u)

/-- Lane 0 matches the row of the length (R51, R71). -/
theorem exists_wireRow_pack :
    ∃ r ∈ wireRows, r.len = lenOf u ∧ r.accepts (pack u).b0 = true := by
  obtain ⟨r, hr, hacc, hlen, -⟩ := existsUnique_wireRow (pack u).b0
  exact ⟨r, hr, hlen.trans (tagLen_pack u), hacc⟩

theorem pack_b0_and_not_pmask0 : (pack u).b0 &&& ~~~(pmask0 (lenOf u)) = tagb (lenOf u) := by
  rw [← tagLen_pack u]
  exact and_not_pmask0 _

/-- The first lanes of an encoding, read by R52, are the value (R75 d). -/
theorem wirePayload_pack :
    wirePayload (lenOf u) (pack u).b0 (((pack u).toList.take (lenOf u).toNat).drop 1) = u :=
  (wirePayload_eq_unpack (tagLen_pack u)).trans (unpack_packAt (le_maxv_lenOf u))

end pack

/-- Values with the same encoding are equal: it has one length, and its number is the tag plus the value
(R75 f). -/
theorem eq_of_take_pack_eq {u v : Word}
    (h : (pack u).toList.take (lenOf u).toNat = (pack v).toList.take (lenOf v).toNat) : u = v := by
  have hu : beNat ((pack u).toList.take (lenOf u).toNat) = (tagp (lenOf u)).toNat + u.toNat :=
    beNat_packAt (le_maxv_lenOf u)
  have hv : beNat ((pack v).toList.take (lenOf v).toNat) = (tagp (lenOf v)).toNat + v.toNat :=
    beNat_packAt (le_maxv_lenOf v)
  have hlen : lenOf u = lenOf v := by
    have := congrArg List.length h
    simp only [List.length_take, Lanes.length_toList, Nat.min_eq_left (Len.toNat_le _)] at this
    exact Len.toNat_inj this
  rw [h, hv, hlen] at hu
  exact BitVec.eq_of_toNat_eq (Nat.add_left_cancel hu).symm

/-- With an entry free an instruction appends its response (R30). -/
theorem exec_of_room {s : State} (i : Instr) (h : s.pend.length < s.params.depth) :
    exec i s = .next (s.push (responseOf i)) := by
  rw [exec_eq, accept_of_room _ h]

end Machine
end Sys2Proof

open Sys2Proof Sys2Proof.Machine

/-- Settles O11. -/
theorem lenOfIsTheSmallestLengthThatFits : Obligations.LenOfIsTheSmallestLengthThatFits := by
  unfold Obligations.LenOfIsTheSmallestLengthThatFits
  exact ⟨fun u => ⟨le_maxv_lenOf u, fun n => (le_maxv_iff u n).mp, toNat_lenOf u⟩,
    rfl, rfl, rfl, rfl, rfl, rfl⟩

/-- Settles O12: the lanes below the length hold the tagged value, and lane 0 is a tag byte of it. -/
theorem packLaysOutTagAndValueBigEndian : Obligations.PackLaysOutTagAndValueBigEndian := by
  unfold Obligations.PackLaysOutTagAndValueBigEndian
  intro u
  have hu := le_maxv_lenOf u
  refine ⟨fun h => ?_, fun _ => ⟨tagp_and_of_le hu, lane_packAt hu⟩, fun h => ?_,
    fun i => packAt_lane_zero i, exists_wireRow_pack u, pack_b0_and_not_pmask0 u⟩
  · rw [pack, h]
    exact ⟨packAt_l9_b0 u, fun i h1 => lane_packAt_of_pos (le_maxv_l9 u) i h1 i.isLt⟩
  · rw [pack, h]
    exact packAt_l1_b0 u

/-- Settles O13: each law of the encoding of length `LenOf(u)`, in which `u` fits. -/
theorem encoderLaws : Obligations.EncoderLaws := by
  unfold Obligations.EncoderLaws
  refine ⟨fun u => ⟨⟨Len.toNat_pos _, Len.toNat_le _⟩, ⟨le_maxv_lenOf u, fun m hm => ?_⟩,
    tagLen_pack u, wirePayload_pack u, fun i => packAt_lane_zero i⟩, fun _ _ => eq_of_take_pack_eq⟩
  exact maxv_lt_of_lt_lenOf (by omega)

/-- Settles O14. -/
theorem encuAnswersTheMinimalEncoding : Obligations.EncuAnswersTheMinimalEncoding := by
  unfold Obligations.EncuAnswersTheMinimalEncoding
  refine ⟨fun a _ => exec_of_room (.encu a), fun _ _ _ => rfl, ⟨rfl, rfl⟩,
    fun n => ⟨lenOf_maxv n, toNat_lenOf_maxv_add_one⟩, rfl, fun a ha => ?_, rfl⟩
  have h9 := lenOf_eq_l9 ha
  exact ⟨h9, by rw [pack, h9, packAt_l9_b0]⟩

/-- Settles O15: the result by the acceptance of the response, the corner cases by evaluation. -/
theorem encsEncodesTheZigzagPattern : Obligations.EncsEncodesTheZigzagPattern := by
  unfold Obligations.EncsEncodesTheZigzagPattern
  exact ⟨fun a _ => exec_of_room (.encs a), fun _ _ _ => rfl, rfl, rfl, rfl, rfl, rfl, rfl, rfl, rfl⟩

/-- Settles O16. -/
theorem lenuAnswersTheLengthsTableEntries : Obligations.LenuAnswersTheLengthsTableEntries := by
  unfold Obligations.LenuAnswersTheLengthsTableEntries
  refine ⟨fun a _ => exec_of_room (.lenu a), fun _ _ _ => rfl, rfl, rfl, rfl, fun a ha => ?_⟩
  exact congrArg Len.code (lenOf_eq_l9 ha)
end

section
/-! SUPPORT. The decoder commands: their responses with an entry free, an `avail` at and below the length
of an encoding, and a stream of encodings read back (R91 to R100). -/

namespace Sys2Proof.Machine

/-! ### The responses with an entry free (R94, R95) -/

section exec
variable {b : Lanes} {avail : BitVec 4} {r : Response} {s : State}

theorem exec_decu_of_room (hroom : s.pend.length < s.params.depth) (h : decuResponse b avail = r) :
    exec (.decu b avail) s = .next (s.push r) := h ▸ exec_of_room (.decu b avail) hroom

theorem exec_decs_of_room (hroom : s.pend.length < s.params.depth) (h : decsResponse b avail = r) :
    exec (.decs b avail) s = .next (s.push r) := h ▸ exec_of_room (.decs b avail) hroom

end exec

/-! ### What the responses depend on (R93) -/

/-- A signed decode depends on what an unsigned decode of the same window answers, and on nothing else
(R95). -/
theorem decsResponse_congr {b b' : Lanes} {avail avail' : BitVec 4}
    (h : decodeResponse b avail = decodeResponse b' avail') :
    decsResponse b avail = decsResponse b' avail' := by
  rw [decsResponse, decsResponse, h]

/-! ### The effective avail (R91) -/

section avail
variable {avail : BitVec 4}

theorem effAvail_of_nine_le (h : 9 ≤ avail.toNat) : effAvail avail = 9 := Nat.min_eq_right h

theorem effAvail_of_le_nine (h : avail.toNat ≤ 9) : effAvail avail = avail.toNat := Nat.min_eq_left h

/-- A window of nine lanes holds every encoding (R91). -/
theorem toNat_tagLen_le_effAvail (t : Byte) (h : 9 ≤ avail.toNat) :
    (tagLen t).toNat ≤ effAvail avail := by
  rw [effAvail_of_nine_le h]
  exact Len.toNat_le _

/-- The `avail` of an encoding without its last byte (R99). -/
theorem effAvail_code_sub_one (n : Len) : effAvail (n.code - 1) = n.toNat - 1 := by
  cases n <;> rfl

theorem countCode_toNat_sub_one (n : Len) : countCode (n.toNat - 1) = n.code - 1 := by
  cases n <;> rfl

end avail

/-- An encoding of two bytes or more without its last one declares the length that it lacks (R99). -/
theorem decuResponse_pack_truncated {u : Word} (h : lenOf u ≠ .l1) :
    decuResponse (pack u) ((lenOf u).code - 1) =
      ⟨.trunc, 0, (lenOf u).code, (lenOf u).code - 1, Lanes.zero⟩ := by
  have hpos := (lenOf u).toNat_pos
  have hne : (lenOf u).toNat ≠ 1 := fun h1 => h (Len.toNat_inj (n := .l1) h1)
  have he := effAvail_code_sub_one (lenOf u)
  rw [decuResponse, decodeResponse_trunc (by omega) (by rw [tagLen_pack]; omega), tagLen_pack, he,
    countCode_toNat_sub_one]

/-- The byte `FF` declares nine bytes, which an `avail` of 1 to 8 does not reach (R94). -/
theorem decuResponse_of_b0_eq_ff {b : Lanes} {avail : BitVec 4} (hb : b.b0 = 0xFF)
    (h1 : 1 ≤ avail.toNat) (h8 : avail.toNat ≤ 8) :
    decuResponse b avail = ⟨.trunc, 0, 9, countCode avail.toNat, Lanes.zero⟩ := by
  have he : effAvail avail = avail.toNat := effAvail_of_le_nine (by omega)
  have ht : tagLen b.b0 = .l9 := by rw [hb]; rfl
  rw [decuResponse, decodeResponse_trunc (by omega) (by rw [ht, he]; exact Nat.lt_succ_of_le h8), ht, he]
  rfl

/-- The bytes up to `7F` declare one byte (R96). -/
theorem tagLen_eq_l1_of_le {t : Byte} (h : t.toNat ≤ 0x7F) : tagLen t = .l1 :=
  (tagLen_eq_iff .l1 t).mpr ⟨Nat.zero_le _, h⟩

/-! ### A stream of encodings (R100) -/

/-- Writing a list puts the encoding of its first value before those of the others. -/
theorem writeUvarints_nil_cons (v : Word) (vs : List Word) :
    writeUvarints [] (v :: vs) = wireBytes (lenOf v) v ++ writeUvarints [] vs := by
  rw [writeUvarints, writeUvarints_append, writeUvarint_eq, List.nil_append]

/-- Each read takes the encoding that was written first of those left. -/
theorem readUvarints_writeUvarints (vs : List Word) :
    readUvarints vs.length (writeUvarints [] vs) = (vs.map some, []) := by
  induction vs with
  | nil => rfl
  | cons v vs ih =>
    rw [writeUvarints_nil_cons, List.length_cons, readUvarints,
      readUvarint_wireBytes (le_maxv_lenOf v), ih, List.map_cons]

end Sys2Proof.Machine

open Sys2Proof Sys2Proof.Machine

/-- Settles O24: the window holds the lanes of the minimal encoding, of the value or of its zigzag
pattern. -/
theorem encodeThenDecodeRoundTrip : Obligations.EncodeThenDecodeRoundTrip := by
  unfold Obligations.EncodeThenDecodeRoundTrip
  refine ⟨fun u b avail s hroom hn hb => ?_, fun v b avail s hroom hn hb => ?_⟩
  · exact exec_decu_of_room hroom (decodeResponse_packAt (le_maxv_lenOf u) hn hb)
  · have hlen : (encsResponse v).len.toNat = (lenOf (zigzagEncode v)).toNat := Len.toNat_code _
    rw [hlen] at hn hb
    have hd := decsResponse_packAt (le_maxv_lenOf (zigzagEncode v)) hn hb
    rw [zigzagDecode_zigzagEncode] at hd
    exact exec_decs_of_room hroom hd

/-- Settles O26, by induction on the list of values; the empty cursor that is left has no valid lane. -/
theorem streamOfValuesReadsBackInOrder : Obligations.StreamOfValuesReadsBackInOrder := by
  unfold Obligations.StreamOfValuesReadsBackInOrder
  refine fun vs => ⟨readUvarints_writeUvarints vs, ?_⟩
  exact (decodeResponse_status_eq_empty_iff _ _).mpr ((effAvail_availOf_eq_zero_iff []).mpr rfl)

/-- Settles O19. -/
theorem decodeReadsOnlyTheListedLanes : Obligations.DecodeReadsOnlyTheListedLanes := by
  unfold Obligations.DecodeReadsOnlyTheListedLanes
  intro b b' avail avail' he h0 hl
  have hd := decodeResponse_congr he h0 hl
  exact ⟨hd, decsResponse_congr hd⟩

/-- Settles O25: an encoding of one byte is left without a lane, a longer one with its tag byte. -/
theorem truncatedEncodingGivesNoValue : Obligations.TruncatedEncodingGivesNoValue := by
  unfold Obligations.TruncatedEncodingGivesNoValue
  exact fun u s hroom => ⟨fun _ => exec_decu_of_room hroom (decodeResponse_empty rfl),
    fun hne => exec_decu_of_room hroom (decuResponse_pack_truncated hne)⟩

/-- Settles O18: an avail from 9 up has the effective avail of 9, which every declared length is within. -/
theorem availCountsAtMostNineLanes : Obligations.AvailCountsAtMostNineLanes := by
  unfold Obligations.AvailCountsAtMostNineLanes
  refine ⟨fun _ => rfl, fun b avail h9 => ?_⟩
  have hok := toNat_tagLen_le_effAvail b.b0 h9
  have hd : decodeResponse b avail = decodeResponse b 9 :=
    decodeResponse_congr (effAvail_of_nine_le h9) (fun _ => rfl) fun _ _ _ => rfl
  exact ⟨hd, decsResponse_congr hd, congrArg Response.status (decodeResponse_ok hok),
    congrArg Response.status (decsResponse_ok hok)⟩

/-- Settles O20: the three outcomes of a decode; closed windows by evaluation. -/
theorem decuReportsEmptyTruncOrTheValue : Obligations.DecuReportsEmptyTruncOrTheValue := by
  unfold Obligations.DecuReportsEmptyTruncOrTheValue
  refine ⟨fun b avail s hroom => ⟨fun h => ?_, fun h1 h2 => ?_, fun h => ?_⟩, fun _ _ _ => rfl,
    fun b avail hb h1 h8 => ?_, rfl, rfl⟩
  · exact exec_decu_of_room hroom (decodeResponse_empty h)
  · exact exec_decu_of_room hroom (decodeResponse_trunc h1 h2)
  · exact exec_decu_of_room hroom (decodeResponse_ok h)
  · rw [decuResponse_of_b0_eq_ff hb h1 h8]
    exact ⟨rfl, rfl⟩

/-- Settles O21: the three outcomes of a signed decode; closed windows by evaluation. -/
theorem decsReportsTheZigzagDecodedValue : Obligations.DecsReportsTheZigzagDecodedValue := by
  unfold Obligations.DecsReportsTheZigzagDecodedValue
  refine ⟨fun b avail s hroom => ⟨fun h => ?_, fun h1 h2 => ?_, fun h => ?_⟩, fun _ _ _ => rfl,
    rfl, rfl, rfl, rfl⟩
  · exact exec_decs_of_room hroom (decsResponse_empty h)
  · exact exec_decs_of_room hroom (decsResponse_trunc h1 h2)
  · exact exec_decs_of_room hroom (decsResponse_ok h)

/-- Settles O22. -/
theorem taglenAnswersTheDeclaredLength : Obligations.TaglenAnswersTheDeclaredLength := by
  unfold Obligations.TaglenAnswersTheDeclaredLength
  exact ⟨fun t _ => exec_of_room (.taglen t), fun _ _ _ => rfl,
    fun _ h => congrArg Len.code (tagLen_eq_l1_of_le h), rfl, ⟨rfl, rfl⟩, rfl⟩

/-- Settles O23: the declared length alone decides; that the value needs fewer bytes is not looked at. -/
theorem nonCanonicalInputDecodesToItsValue : Obligations.NonCanonicalInputDecodesToItsValue := by
  unfold Obligations.NonCanonicalInputDecodesToItsValue
  exact ⟨fun _ _ _ hroom hn _ => exec_decu_of_room hroom (decodeResponse_ok hn), rfl⟩
end

section
/-! SUPPORT. The zigzag pair: the bits of a pattern, the signed values whose patterns fit a bound, and the
responses of `ZZE` and `ZZD` (R110 to R114). -/

namespace Sys2Proof.Machine

section zigzag
variable (v : Word)

/-! ### The bits of a pattern (R110) -/

/-- Bit 0 of a pattern is the sign of the value: the left shift leaves it clear, the complement sets it. -/
theorem getLsbD_zigzagEncode_zero : (zigzagEncode v).getLsbD 0 = v.msb := by
  rw [zigzagEncode_eq]
  cases v.msb <;> simp

/-- The other bits of a pattern are those of the value, one place up, complemented below zero. -/
theorem getLsbD_zigzagEncode_succ {j : Nat} (h : j < 63) :
    (zigzagEncode v).getLsbD (j + 1) = if v.msb then !(v.getLsbD j) else v.getLsbD j := by
  have hbit : j + 1 < 64 := Nat.succ_lt_succ h
  have hshift : (v <<< 1).getLsbD (j + 1) = v.getLsbD j := by
    rw [BitVec.getLsbD_shiftLeft]
    simp [hbit]
  rw [zigzagEncode_eq]
  cases v.msb
  · exact hshift
  · simp only [if_true, BitVec.getLsbD_not, hbit, decide_true, Bool.true_and, hshift]

/-! ### The signed values of a length (R114) -/

/-- The patterns below `2p` are those of the `p` values from zero up and of the `p` values below zero. -/
theorem toNat_zigzagEncode_lt_two_mul_iff (p : Nat) :
    (zigzagEncode v).toNat < 2 * p ↔ -(p : Int) ≤ v.toInt ∧ v.toInt ≤ p - 1 := by
  have h := toNat_zigzagEncode v
  split at h <;> omega

/-- A length of at most eight bytes holds the values below `2 ^ (7 n)`, written as twice a power of two. -/
theorem le_maxv_iff_lt_two_mul {u : Word} {n : Len} (h : n ≠ .l9) :
    u ≤ maxv n ↔ u.toNat < 2 * 2 ^ (7 * n.toNat - 1) := by
  have hpos := n.toNat_pos
  rw [le_maxv_iff_size_le h, Nat.size_le, mul_pow_sub_one (by omega)]

/-- `ENCS` encodes a value in at most `n` bytes exactly when its pattern fits in `n` bytes (R73, R114). -/
theorem encsResponse_len_le_iff (n : Len) :
    (encsResponse v).len.toNat ≤ n.toNat ↔ zigzagEncode v ≤ maxv n := by
  have hlen : (encsResponse v).len.toNat = (lenOf (zigzagEncode v)).toNat := Len.toNat_code _
  rw [hlen, le_maxv_iff]

end zigzag

end Sys2Proof.Machine

open Sys2Proof Sys2Proof.Machine

/-- Settles O30: the formulas are the definitions; the numbers and the bits have their own lemmas. -/
theorem zigzagClosedForms : Obligations.ZigzagClosedForms := by
  unfold Obligations.ZigzagClosedForms
  exact ⟨fun v => ⟨rfl, toNat_zigzagEncode v, getLsbD_zigzagEncode_zero v,
    fun _ => getLsbD_zigzagEncode_succ v⟩, fun u => ⟨rfl, toInt_zigzagDecode u⟩⟩

/-- Settles O31: the lengths hold the patterns below a power of two, which are those of the values between
half of it and its negative. -/
theorem zigzagIsABijection : Obligations.ZigzagIsABijection := by
  unfold Obligations.ZigzagIsABijection
  refine ⟨fun x => ⟨zigzagDecode_zigzagEncode x, zigzagEncode_zigzagDecode x⟩, rfl, fun v n hn => ?_⟩
  rw [encsResponse_len_le_iff, le_maxv_iff_lt_two_mul hn, toNat_zigzagEncode_lt_two_mul_iff]
  push_cast
  rfl

/-- Settles O32: the result by the acceptance of the response, the corner cases by evaluation. -/
theorem zzeAnswersTheZigzagPattern : Obligations.ZzeAnswersTheZigzagPattern := by
  unfold Obligations.ZzeAnswersTheZigzagPattern
  exact ⟨fun a _ => exec_of_room (.zze a), fun _ _ _ => rfl, rfl, rfl, rfl, rfl, rfl⟩

/-- Settles O33: the result by the acceptance of the response, the corner cases by evaluation. -/
theorem zzdAnswersTheSignedValue : Obligations.ZzdAnswersTheSignedValue := by
  unfold Obligations.ZzdAnswersTheSignedValue
  exact ⟨fun a _ => exec_of_room (.zzd a), fun _ _ _ => rfl, rfl, rfl, rfl, rfl, rfl, rfl⟩
end

section
/-! SUPPORT. Where a step stops, and what a step of one instance does to a system (R122, R128, R140). -/

namespace Sys2Proof.Machine

section stops
variable {s : State}

theorem badRead_iff (p : PortIn) (s : State) :
    badRead p s = true ↔ p.hostReads = true ∧ s.rspFields p.rst = none := by
  simp [badRead]

@[simp] theorem takeInput_badReadFault (s : State) : badReadFault s.takeInput = badReadFault s := rfl

theorem step_of_badRead (hb : badRead s.nextInput s = true) : step s = .fault (badReadFault s) := by
  simp [step, edge, hb]

/-- Every edge but that of a bad read answers a next state (R122). -/
theorem step_next_of_not_badRead (hb : badRead s.nextInput s = false) : ∃ t, step s = .next t := by
  obtain ⟨hb', -⟩ | ⟨-, -, he⟩ | ⟨-, -, -, he⟩ | ⟨-, -, -, -, he⟩ | ⟨-, -, -, -, he⟩ :=
    edge_cases s.nextInput s.takeInput
  · simp [hb] at hb'
  all_goals exact ⟨_, he⟩

theorem step_ne_refused (s : State) (r : Refusal) : step s ≠ .refused r := by
  cases hb : badRead s.nextInput s
  case true => simp [step_of_badRead hb]
  case false =>
    obtain ⟨t, ht⟩ := step_next_of_not_badRead hb
    simp [ht]

theorem step_eq_fault_iff (s : State) (f : Fault) :
    step s = .fault f ↔ badRead s.nextInput s = true ∧ f = badReadFault s := by
  cases hb : badRead s.nextInput s
  case true => simp [step_of_badRead hb, eq_comm]
  case false =>
    obtain ⟨t, ht⟩ := step_next_of_not_badRead hb
    simp [ht]

end stops

/-- A step of a system either finds no instance `k` and moves nothing, or writes back to place `k` what
the instance there moves to alone (R128). -/
theorem System.stepAt_next_cases {k : Nat} {sys sys' : System} (h : System.stepAt k sys = .next sys') :
    (sys[k]? = none ∧ sys' = sys) ∨
      ∃ s t, sys[k]? = some s ∧ step s = .next t ∧ sys' = sys.set k t := by
  unfold System.stepAt at h
  split at h
  next hk =>
    injection h with h
    exact .inl ⟨hk, h.symm⟩
  next s hk =>
    split at h
    next t hst =>
      injection h with h
      exact .inr ⟨s, t, hk, hst, h.symm⟩
    · cases h
    · cases h

end Sys2Proof.Machine

open Sys2Proof.Machine

/-- Settles O50: a read of no value is tested before everything else at an edge, and every other edge
answers a next state. -/
theorem stepStopsOnlyOnAReadOfNoValue : Obligations.StepStopsOnlyOnAReadOfNoValue := by
  unfold Obligations.StepStopsOnlyOnAReadOfNoValue
  refine fun s => ⟨step_ne_refused s, fun f => ?_⟩
  rw [step_eq_fault_iff, badRead_iff, and_assoc, badReadFault]

/-- Settles O56: the only write to the system is the one to place `k`. -/
theorem instancesAreIndependent : Obligations.InstancesAreIndependent := by
  unfold Obligations.InstancesAreIndependent
  intro k sys sys' h
  obtain ⟨hk, rfl⟩ | ⟨s, t, hk, hst, rfl⟩ := System.stepAt_next_cases h
  · refine ⟨rfl, fun _ _ => rfl, fun s hs => ?_⟩
    rw [hk] at hs
    cases hs
  · refine ⟨List.length_set, fun j hj => List.getElem?_set_ne hj.symm, fun s' hs' => ⟨t, ?_, ?_⟩⟩
    · obtain rfl : s = s' := Option.some.inj (hk.symm.trans hs')
      exact hst
    · exact List.getElem?_set_self (List.getElem?_eq_some_iff.mp hk).1
end

section
/-! SUPPORT. Reset, latency and the host's duties: a step without a reset seen from the queue, a property
kept over a run without a reset, and what the lanes of a window say of its stream (R34 to R36, R45, R93,
R140 to R147). -/

namespace Sys2Proof

/-- Windows with the same first `n` bytes agree on their first `n` lanes (R42). -/
theorem Lanes.lane_eq_of_take_eq {a b : Lanes} {n : Nat} (h : a.toList.take n = b.toList.take n)
    (i : Fin 9) (hi : i.val < n) : a.lane i = b.lane i := by
  have hbyte : a.toList[i.val]? = b.toList[i.val]? := by
    simpa only [List.getElem?_take, hi, if_true] using congrArg (·[i.val]?) h
  rw [← Lanes.getElem_toList, ← Lanes.getElem_toList]
  rwa [List.getElem?_eq_getElem, List.getElem?_eq_getElem, Option.some_inj] at hbyte

namespace Machine

/-- A window that keeps the duty of R145 has the effective avail and, up to it, the lanes of its stream's
own window: all that a decode can read (R93). -/
theorem decodeResponse_of_windowDuty {stream : List Byte} {b : Lanes} {avail : BitVec 4}
    (h : WindowDuty stream b avail) :
    decodeResponse b avail = decodeResponse (windowOf stream) (availOf stream) := by
  obtain ⟨havail, hbytes⟩ := h
  rw [← take_windowOf stream havail.le] at hbytes
  have hlane := Lanes.lane_eq_of_take_eq hbytes
  exact decodeResponse_congr (havail.trans (effAvail_availOf stream).symm) (hlane 0)
    fun hlen i hi => hlane i (lt_of_lt_of_le hi hlen)

/-! ### Reads of no value, reset edges and edges before the first reset (R34, R140, R141) -/

section reset
variable {s : State}

/-- A read while `rsp_valid = 0` or before the first reset finds no value. -/
theorem step_of_read_of_no_value (hh : s.nextInput.hostReads = true)
    (hno : s.rspFields s.nextInput.rst = none) : step s = .fault (badReadFault s) :=
  step_of_badRead ((badRead_iff _ _).mpr ⟨hh, hno⟩)

theorem rspFields_of_not_valid {rst : Bool} (h : s.rspValid rst = false) : s.rspFields rst = none := by
  simp [State.rspFields, h]

theorem rspFields_of_not_live (hl : s.live = false) (rst : Bool) : s.rspFields rst = none := by
  simp [State.rspFields, hl]

/-- While `rst = 1` the port shows nothing (R34, R140). -/
theorem outputs_of_rst (s : State) : s.outputs true = ⟨false, false, none⟩ := by
  rw [State.outputs, rspFields_of_not_valid rfl]
  rfl

theorem step_of_rst (hr : s.nextInput.rst = true) (hh : s.nextInput.hostReads = false) :
    step s = .next (resetEdge s.takeInput) := by
  simp [step, edge, badRead_of_not_reads _ hh, hr]

theorem step_of_not_live (hl : s.live = false) (hr : s.nextInput.rst = false)
    (hh : s.nextInput.hostReads = false) : step s = .next (unspecifiedEdge s.takeInput) := by
  simp [step, edge, badRead_of_not_reads _ hh, hr, hl]

/-- An empty queue has an entry free (R142). -/
theorem reqReady_of_empty (hl : s.live = true) (hp : s.pend = []) : s.reqReady false = true :=
  congrArg PortOut.reqReady (outputs_of_empty hl hp)

/-- An empty queue has nothing to deliver and nothing that grows older. -/
theorem deliverPhase_of_empty (p : PortIn) (hp : s.pend = []) : deliverPhase p s = s := by
  obtain ⟨-, e, rest, hp', -⟩ | ⟨-, h⟩ := deliverPhase_cases p s
  · simp [hp] at hp'
  · rw [h, passEdge, hp, List.map_nil, ← hp]

end reset

/-! ### A step without a reset, seen from the queue (R35, R36) -/

section queue
variable {s t : State}

/-- A step without a reset either hands over the head, which was ready, or hands over nothing; the entries
that stay are one edge older, and whatever is new stands behind them. -/
theorem step_queue_cases (hl : s.live = true) (hr : s.nextInput.rst = false) (h : step s = .next t) :
    ∃ new,
      (∃ e rest, s.pend = e :: rest ∧ s.params.latency ≤ e.age ∧ s.nextInput.rspReady = true ∧
        t.delivered = s.delivered ++ [e.rsp] ∧
        t.pend = rest.map (fun e => { e with age := e.age + 1 }) ++ new) ∨
      ((s.nextInput.rspReady = false ∨ s.headReady = false) ∧ t.delivered = s.delivered ∧
        t.pend = s.pend.map (fun e => { e with age := e.age + 1 }) ++ new) := by
  have hphase : ∃ new, t.delivered = (deliverPhase s.nextInput s.takeInput).delivered ∧
      t.pend = (deliverPhase s.nextInput s.takeInput).pend ++ new := by
    obtain ⟨hr', -⟩ | ⟨-, hl', -⟩ | ⟨-, -, -, rfl⟩ | ⟨-, -, -, rfl⟩ := step_next_cases h
    · simp [hr] at hr'
    · simp [hl] at hl'
    · exact ⟨_, rfl, rfl⟩
    · exact ⟨[], rfl, (List.append_nil _).symm⟩
  obtain ⟨new, hd, hp⟩ := hphase
  refine ⟨new, ?_⟩
  obtain ⟨hready, e, rest, hpend, hage, he⟩ | ⟨hnot, he⟩ := deliverPhase_cases s.nextInput s.takeInput <;>
    rw [he] at hd hp
  · exact .inl ⟨e, rest, hpend, hage, hready, hd, hp⟩
  · exact .inr ⟨hnot, hd, hp⟩

/-- A head that is ready and not taken is still the head, and ready, after the step (R144). -/
theorem step_keeps_head {e : Pending} {rest : List Pending} (hl : s.live = true)
    (hr : s.nextInput.rst = false) (hnot : s.nextInput.rspReady = false) (hp : s.pend = e :: rest)
    (h : step s = .next t) : ∃ rest', t.pend = { e with age := e.age + 1 } :: rest' := by
  obtain ⟨new, ⟨_, _, -, -, hready, -⟩ | ⟨-, -, hp'⟩⟩ := step_queue_cases hl hr h
  · simp [hnot] at hready
  · exact ⟨_, by rw [hp', hp]; rfl⟩

/-- An accepted request's response is queued, the accepting edge counted (R30, R146). -/
theorem mem_pend_of_accepts (ha : accepts s.nextInput s = true) (h : step s = .next t) :
    ⟨respond s.nextInput.request, 1⟩ ∈ t.pend := by
  obtain ⟨-, hl, hr, -⟩ := (accepts_iff _ _).mp ha
  obtain ⟨hr', -⟩ | ⟨-, hl', -⟩ | ⟨-, -, -, rfl⟩ | ⟨-, -, ha', -⟩ := step_next_cases h
  · simp [hr] at hr'
  · simp [hl] at hl'
  · exact List.mem_append_right _ (List.mem_singleton_self _)
  · simp [ha] at ha'

/-- A full queue accepts nothing, even where its head leaves at the same edge (R36). -/
theorem accepts_eq_false_of_full (p : PortIn) (hfull : s.pend.length = s.params.depth) :
    accepts p s = false := by
  rw [← Bool.not_eq_true, accepts_iff]
  rintro ⟨-, -, -, hroom⟩
  exact hroom.ne hfull

end queue

/-! ### Runs without a reset -/

/-- A property of the state, indexed by the edges that have passed, that every step without a reset carries
one edge on holds at the end of every run without a reset. -/
theorem runFor_invariant {P : Nat → State → Prop}
    (hstep : ∀ i s t, s.live = true → s.nextInput.rst = false → step s = .next t → P i s → P (i + 1) t)
    (k : Nat) {i : Nat} {s t : State} (hl : s.live = true) (hn : s.noResetIn k)
    (hrun : runFor k s = .next t) (hs : P i s) : P (i + k) t := by
  induction k generalizing i s with
  | zero =>
    obtain rfl : s = t := by simpa [runFor] using hrun
    exact hs
  | succ k ih =>
    rw [runFor_succ] at hrun
    cases hst : step s with
    | next u =>
      rw [hst] at hrun
      have hu := hstep i s u hl (noResetIn_succ hn).1 hst hs
      rw [Nat.add_comm k 1, ← Nat.add_assoc]
      exact ih (step_live_fresh hst hl).1 (noResetIn_step hn hst) hrun hu
    | fault f => rw [hst] at hrun; cases hrun
    | refused f => rw [hst] at hrun; cases hrun

/-- An entry stays queued for as long as its age has not passed `LATENCY` (R35, R146). -/
theorem young_entry_stays_runFor (k : Nat) {i : Nat} {r : Response} {s t : State} (hl : s.live = true)
    (hn : s.noResetIn k) (hrun : runFor k s = .next t) (hs : ⟨r, i⟩ ∈ s.pend)
    (hage : i + k ≤ s.params.latency) : ⟨r, i + k⟩ ∈ t.pend := by
  have hinv := runFor_invariant (i := i)
    (P := fun j u => u.params = s.params ∧ (j ≤ s.params.latency → ⟨r, j⟩ ∈ u.pend))
    (fun j u v hlu hru hst ⟨hparams, hmem⟩ =>
      ⟨(step_params_inputs hst).1.trans hparams, fun hj =>
        young_entry_stays hlu hru hst (hmem (by omega)) (hparams ▸ hj)⟩)
    k hl hn hrun ⟨rfl, fun _ => hs⟩
  exact hinv.2 hage

/-- A host that reads no data field lets every run complete (R122). -/
theorem runFor_completes (k : Nat) {s : State} (hn : s.noReads) : ∃ t, runFor k s = .next t := by
  induction k generalizing s with
  | zero => exact ⟨s, rfl⟩
  | succ k ih =>
    have hh : s.nextInput.hostReads = false := by
      unfold State.nextInput
      cases hin : s.inputs with
      | nil => rfl
      | cons p ps => exact hn p (by simp [hin])
    obtain ⟨u, hst⟩ := step_next_of_not_badRead (badRead_of_not_reads s hh)
    rw [runFor_succ, hst]
    refine ih fun p hp => hn p (List.mem_of_mem_tail ?_)
    rwa [← (step_params_inputs hst).2]

/-! ### Enough ready edges for the responses that are due (R147) -/

/-- The listed edges are enough to hand over all of `rs`: what is left of it stands at the front of the
queue and ages to `LATENCY` within `wait` edges, and there is a ready edge for each response left even if
`wait` ready edges take none. -/
def State.Due (rs : List Response) (s : State) : Prop :=
  ∃ (old new : List Pending) (wait : Nat), s.pend = old ++ new ∧
    rs <+: s.delivered ++ old.map (·.rsp) ∧
    (∀ e ∈ old, s.params.latency ≤ e.age + wait) ∧ wait + old.length ≤ s.readyEdges

section due
variable {rs : List Response} {s t : State}

/-- `LATENCY` edges age every entry to `LATENCY`, and each further ready edge takes one. -/
theorem due_responseTrace (h : s.params.latency + s.pend.length ≤ s.readyEdges) :
    s.Due s.responseTrace :=
  ⟨s.pend, [], s.params.latency, (List.append_nil _).symm, List.prefix_rfl,
    fun _ _ => Nat.le_add_left _ _, h⟩

/-- Without a ready edge left, nothing is left to be handed over. -/
theorem prefix_delivered_of_due (h : s.Due rs) (hin : s.inputs = []) : rs <+: s.delivered := by
  obtain ⟨old, new, wait, -, hpre, -, hready⟩ := h
  have hzero : s.readyEdges = 0 := by simp [State.readyEdges, hin]
  obtain rfl : old = [] := List.length_eq_zero_iff.mp (by omega)
  simpa using hpre

/-- A step uses up one ready edge of the list if the host is ready at it, and none otherwise. -/
theorem readyEdges_step (h : step s = .next t) :
    s.readyEdges = t.readyEdges + if s.nextInput.rspReady then 1 else 0 := by
  unfold State.readyEdges State.nextInput
  rw [(step_params_inputs h).2]
  cases s.inputs with
  | nil => rfl
  | cons p ps => cases hp : p.rspReady <;> simp [hp]

/-- Entries that are all one edge older need one edge less to age to `LATENCY`. -/
theorem aged_of_older {old : List Pending} {latency wait wait' : Nat} (hw : wait ≤ wait' + 1)
    (h : ∀ e ∈ old, latency ≤ e.age + wait) :
    ∀ e ∈ old.map (fun e => { e with age := e.age + 1 }), latency ≤ e.age + wait' := by
  intro e he
  obtain ⟨e', he', rfl⟩ := List.mem_map.mp he
  have := h e' he'
  dsimp only
  omega

/-- A ready edge that takes nothing finds a young head, so it is one of the edges waited for. -/
theorem wait_of_not_taken {e : Pending} {rest : List Pending} {wait n : Nat} (h : step s = .next t)
    (hnot : s.nextInput.rspReady = false ∨ s.headReady = false) (hp : s.pend = e :: rest)
    (hage : t.params.latency ≤ e.age + wait) (hready : wait + n ≤ s.readyEdges) :
    ∃ wait', wait ≤ wait' + 1 ∧ wait' + n ≤ t.readyEdges := by
  have hedges := readyEdges_step h
  cases hrdy : s.nextInput.rspReady with
  | false => exact ⟨wait, Nat.le_succ wait, by simpa [hedges, hrdy] using hready⟩
  | true =>
    have hyoung : ¬ s.params.latency ≤ e.age := fun hold => by
      have := (headReady_iff s).mpr ⟨e, rest, hp, hold⟩
      simp [hrdy, this] at hnot
    rw [(step_params_inputs h).1] at hage
    rw [hrdy, if_pos rfl] at hedges
    exact ⟨wait - 1, by omega, by omega⟩

/-- The ready edge that a step uses up either takes the head or was one of the edges waited for. -/
theorem due_step (hl : s.live = true) (hr : s.nextInput.rst = false) (h : step s = .next t)
    (hdue : s.Due rs) : t.Due rs := by
  obtain ⟨old, new, wait, hp, hpre, hage, hready⟩ := hdue
  obtain ⟨more, hcases⟩ := step_queue_cases hl hr h
  rw [← (step_params_inputs h).1] at hage
  cases old with
  | nil =>
    have hrs : rs <+: s.delivered := by simpa using hpre
    exact ⟨[], t.pend, 0, rfl, by simpa using hrs.trans (step_delivered_prefix h), by simp, by simp⟩
  | cons e old =>
    rw [List.length_cons] at hready
    have hcons : s.pend = e :: (old ++ new) := hp
    obtain ⟨_, _, hhead, -, htake, hd, hpend⟩ | ⟨hnot, hd, hpend⟩ := hcases
    · obtain ⟨rfl, rfl⟩ := List.cons.inj (hhead.symm.trans hcons)
      have hedges := readyEdges_step h
      rw [htake, if_pos rfl] at hedges
      refine ⟨_, new.map _ ++ more, wait, by rw [hpend, List.map_append, List.append_assoc], ?_,
        aged_of_older (Nat.le_succ wait) fun e' he' => hage e' (List.mem_cons_of_mem _ he'), ?_⟩
      · simpa [hd, Function.comp_def] using hpre
      · rw [List.length_map]
        omega
    · obtain ⟨wait', hw, hready'⟩ := wait_of_not_taken h hnot hcons (hage e List.mem_cons_self) hready
      refine ⟨_, new.map _ ++ more, wait', by rw [hpend, hp, List.map_append, List.append_assoc], ?_,
        aged_of_older hw hage, by simpa using hready'⟩
      simpa [hd, Function.comp_def] using hpre

/-- At the end of the listed edges all that was due has been handed over. -/
theorem prefix_delivered_runFor (hl : s.live = true) (hn : s.noResetIn s.inputs.length)
    (hdue : s.Due rs) (hrun : runFor s.inputs.length s = .next t) : rs <+: t.delivered := by
  have hend := runFor_invariant (i := 0) (P := fun j u => u.inputs = s.inputs.drop j ∧ u.Due rs)
    (fun j u v hlu hru hst ⟨hin, hd⟩ =>
      ⟨by rw [(step_params_inputs hst).2, hin, List.tail_drop], due_step hlu hru hst hd⟩)
    _ hl hn hrun ⟨rfl, hdue⟩
  exact prefix_delivered_of_due hend.2 (by rw [hend.1, Nat.zero_add, List.drop_length])

end due

end Machine
end Sys2Proof

open Sys2Proof Sys2Proof.Machine

/-- Settles O28. -/
theorem windowDutyMakesTheResponseDescribeTheStream :
    Obligations.WindowDutyMakesTheResponseDescribeTheStream := by
  unfold Obligations.WindowDutyMakesTheResponseDescribeTheStream
  intro stream b avail h
  have hd := decodeResponse_of_windowDuty h
  exact ⟨hd, decsResponse_congr hd⟩

/-- Settles O52: the accepting edge queues the response at age 1, and it stays while it is young. -/
theorem noDeliveryBeforeLatency : Obligations.NoDeliveryBeforeLatency := by
  unfold Obligations.NoDeliveryBeforeLatency
  intro k s t t' hl ha hst hn hk hrun
  rw [Nat.add_comm]
  refine young_entry_stays_runFor k (step_live_fresh hst hl).1 hn hrun (mem_pend_of_accepts ha hst) ?_
  rw [(step_params_inputs hst).1]
  omega

/-- Settles O53: what is queued is due, a step keeps it due, and what is due at the end of the list has
been handed over. -/
theorem queuedResponsesAreDelivered : Obligations.QueuedResponsesAreDelivered := by
  unfold Obligations.QueuedResponsesAreDelivered
  refine ⟨fun s hl hn hready => ⟨runFor_completes _, fun t hrun =>
    prefix_delivered_runFor hl hn (due_responseTrace hready) hrun⟩, ?_⟩
  intro s t hl hfull hst hne
  have hroom := length_lt_of_delivers (accepts_eq_false_of_full _ hfull) hst hne
  rw [hfull, ← (step_params_inputs hst).1] at hroom
  exact (reqReady_iff_of_live (step_live_fresh hst hl).1).mpr hroom

/-- Settles O54: a head that is not taken stays the head, and the port shows the head. -/
theorem heldResponseStaysOnThePort : Obligations.HeldResponseStaysOnThePort := by
  unfold Obligations.HeldResponseStaysOnThePort
  intro s hl hv hr hnot
  obtain ⟨e, rest, hp, hage⟩ := (headReady_iff s).mp ((rspValid_of_live hl).symm.trans hv)
  have hshown := rspFields_of_ready hl hp hage
  obtain ⟨t, hst⟩ : ∃ t, step s = .next t :=
    step_next_of_not_badRead (by simp [badRead, hr, hshown])
  obtain ⟨rest', hp'⟩ := step_keeps_head hl hr hnot hp hst
  have hlt := (step_live_fresh hst hl).1
  have hage' : t.params.latency ≤ e.age + 1 := by
    rw [(step_params_inputs hst).1]
    exact Nat.le_succ_of_le hage
  exact ⟨t, hst, (rspValid_of_live hlt).trans ((headReady_iff t).mpr ⟨_, _, hp', hage'⟩),
    (rspFields_of_ready hlt hp' hage').trans hshown.symm⟩

/-- Settles O42. -/
theorem resetEdgeEmptiesTheQueue : Obligations.ResetEdgeEmptiesTheQueue := by
  unfold Obligations.ResetEdgeEmptiesTheQueue
  refine ⟨fun s => step_of_rst, outputs_of_rst, fun s hl hh hv => ?_⟩
  rw [step_of_read_of_no_value hh (rspFields_of_not_valid hv), badReadFault, if_pos hl]

/-- Settles O43: an empty queue has an entry free, and the delivery phase leaves it empty. -/
theorem firstRequestAfterResetIsAccepted : Obligations.FirstRequestAfterResetIsAccepted := by
  unfold Obligations.FirstRequestAfterResetIsAccepted
  intro s hl hp
  have hreq := reqReady_of_empty hl hp
  have hroom := (reqReady_iff_of_live hl).mp hreq
  refine ⟨hreq, fun hr hh hv => ?_⟩
  rw [step_of_request hl hr hh hv hroom, deliverPhase_of_empty _ (s := s.takeInput) hp,
    exec_decodeRequest, accept_of_room (s := s.takeInput) _ hroom, State.push, takeInput_pend, hp,
    List.nil_append]

/-- Settles O45. -/
theorem nothingIsDeliveredBeforeTheFirstReset : Obligations.NothingIsDeliveredBeforeTheFirstReset := by
  unfold Obligations.NothingIsDeliveredBeforeTheFirstReset
  intro s hl
  refine ⟨fun hr hh => ⟨_, step_of_not_live hl hr hh, hl, rfl, rfl⟩, fun hh => ?_, fun hr hh =>
    ⟨_, step_of_rst hr hh, rfl, rfl, reqReady_of_empty rfl rfl⟩⟩
  rw [step_of_read_of_no_value hh (rspFields_of_not_live hl _), badReadFault, hl]
  rfl
end
